-- ==== Sys2Proof/Word.lean ====
section
/-! DEFINITION. The values of the machine: 32-bit words, bytes of the byte view, register numbers.
spec/00_scope.md R10, R12, R13; spec/10_state.md R20, R21. -/

namespace Sys2Proof

/-- A register value, a memory word, an instruction word or a word address (R10, R13). `toNat` is the spec's
`uint`, `toInt` its `sint`, `+` and `-` are modulo 2^32, `~~~` is the spec's `~`. -/
abbrev Word := BitVec 32

/-- One byte of the byte view of a word (20_memory.md R41). -/
abbrev Byte := BitVec 8

/-- A register field: the 4-bit number of one of the registers r0 to r15 (R21). -/
abbrev Reg := BitVec 4

end Sys2Proof
end

