-- ==== Sys2Proof/Config.lean ====
section
/-! DEFINITION. The named parameters of spec/00_scope.md R11, in the order of its table, and the free values of the
model. The values are the spec's decisions. `IMEM_WORDS`, `DMEM_WORDS` and `R0_ZERO` are arguments of a run and stand
in State (90_conflicts.md C2, 92_eei_decisions.md D6, 93_implementation_defined.md U8, U10); here are their values in
`State.reset`. -/

namespace Sys2Proof

/-- The four flags of RF, by name (10_state.md R27). -/
inductive FlagName where
  | neg
  | zero
  | carry
  | overflow
deriving DecidableEq, Repr

/-- One flag of RF: a bit, or the value `asl` leaves, which the spec does not promise and which every read draws anew
(10_state.md R27, R28, R37; 42_alu.md R121; log 5). -/
inductive FlagBit where
  | bit (value : Bool)
  | unspecified
deriving DecidableEq, Repr

/-- The six condition suffixes (43_control_transfer.md R130). -/
inductive Cond where
  | neg
  | zero
  | carry
  | negzero
  | true
  | overflow
deriving DecidableEq, Repr

/-! ## Parameters (R11) -/

/-- `R0_ZERO` of `State.reset`: register 0 reads zero and ignores writes (D2; UNVERIFIED, log 9). -/
def Config.r0Zero : Bool := true

/-- `ADDR_UNIT`, as the bytes that one address names: one 32-bit word (D4; UNVERIFIED, log 10). -/
def Config.addrUnitBytes : Nat := 4

/-- `MEM_UNIFIED`: whether instructions and data share one memory (D5; UNVERIFIED, log 10). -/
def Config.memUnified : Bool := false

/-- `IMEM_WORDS` of `State.reset`. OPEN in the spec (D6): every statement takes the size from the state.
DESIGN CHOICE, unsafe for claims about `State.reset` alone (log 6). -/
def Config.imemWordsAtReset : Nat := 0x1000

/-- `DMEM_WORDS` of `State.reset`. OPEN in the spec (D6): every statement takes the size from the state.
DESIGN CHOICE, unsafe for claims about `State.reset` alone (log 6). -/
def Config.dmemWordsAtReset : Nat := 0x1000

/-- `PC_BITS` (D8; UNVERIFIED, log 10). -/
@[simp] abbrev Config.pcBits : Nat := 32

/-- `RESET_PC` (R36, D9; UNVERIFIED, log 23). -/
def Config.resetPc : Word := 0#32

/-! `LAYOUT` (D11) is the encoder and the fields of Decode.lean, which hold every bit position (UNVERIFIED, log 8). -/

/-- `COND_CODES`, the value of the field `cond` for each condition (R130, D13; UNVERIFIED, log 8). -/
def Config.condCodes : Cond → BitVec 4
  | .neg => 0#4
  | .zero => 1#4
  | .carry => 2#4
  | .negzero => 3#4
  | .true => 4#4
  | .overflow => 5#4

/-- `LOADLIT_BITS` (D14; UNVERIFIED, log 8). -/
@[simp] abbrev Config.loadlitBits : Nat := 16

/-- `LOADLIT_EXT`, how the constant of loadlit becomes a word: by sign extension (D14; UNVERIFIED, log 8). -/
@[simp] abbrev Config.loadlitExt (k : BitVec Config.loadlitBits) : Word := k.signExtend 32

/-- `DEST_BITS_I` (D16; UNVERIFIED, log 8). -/
@[simp] abbrev Config.destBitsI : Nat := 20

/-- `DEST_BITS_II` (D16; UNVERIFIED, log 8). -/
@[simp] abbrev Config.destBitsII : Nat := 24

/-- `DEST_MODE`, how Destino becomes a target: as an absolute word address, zero-extended (D16; UNVERIFIED, log 8). -/
@[simp] abbrev Config.destMode {n : Nat} (destino : BitVec n) : Word := destino.setWidth 32

/-- `LINK_REG`, the register `jal` writes (R134, D17; UNVERIFIED, log 11). -/
def Config.linkReg : Reg := 15#4

/-- `SHIFT_AMOUNT`, the positions moved by lsl, lsr, asr and asl (42_alu.md R126, D18; UNVERIFIED, log 13). -/
def Config.shiftAmount : Nat := 1

/-- `ASL_FLAGS`, what asl leaves in each flag: OPEN, any value (42_alu.md R121, D19, U3; log 5). -/
def Config.aslFlags (_ : FlagName) : FlagBit := .unspecified

/-- `NOP_WORD` (30_encoding.md R71, D26; UNVERIFIED, log 8). -/
def Config.nopWord : Word := 0#32

/-- `BRANCH_DELAY_SLOTS`, the instructions executed after a taken jump before the target (43_control_transfer.md R136,
D27; UNVERIFIED, log 12). The meanings are those of the value 0; `TakenJumpsReachTheirTargetAfterTheDelaySlots` of the
statements says so by this name. -/
def Config.branchDelaySlots : Nat := 0

/-! ## Free values -/

/-- The word that draw number `n` yields where a load reads a data word nothing has written (10_state.md R37, U7).
A free value: it has no body. DESIGN CHOICE, safe (log 3). -/
opaque Config.freeWord : Nat → Word

/-- The bit that draw number `n` yields for a flag that is unspecified (10_state.md R37, 42_alu.md R121, U3).
A free value: it has no body. DESIGN CHOICE, safe (log 5). -/
opaque Config.freeFlag : Nat → FlagName → Bool

end Sys2Proof
end

