-- ==== Sys2Proof/Syntax.lean ====
section
/-! DEFINITION. The instructions: one constructor per row of spec/opcode_table.json, with the operands of
spec/30_encoding.md R80, immediates already assembled by R72. -/

namespace Sys2Proof

/-- An instruction. `c`, `a`, `b` are register fields (00_scope.md R15); `imm` is the 32-bit constant of `loadlit`
after sign extension, `target` the 32-bit word address of a jump after zero extension (30_encoding.md R72; log 16). -/
inductive Instr where
  | load (c a : Reg)
  | store (a b : Reg)
  | loadlit (c : Reg) (imm : Word)
  | lcl (c : Reg) (const8 : BitVec 8)
  | lch (c : Reg) (const8 : BitVec 8)
  | zeros (c : Reg)
  | and (c a b : Reg)
  | andnota (c a b : Reg)
  | passa (c a : Reg)
  | xor (c a b : Reg)
  | or (c a b : Reg)
  | nor (c a b : Reg)
  | xnor (c a b : Reg)
  | passnota (c a : Reg)
  | ornotb (c a b : Reg)
  | nand (c a b : Reg)
  | ones (c : Reg)
  | add (c a b : Reg)
  | addinc (c a b : Reg)
  | inca (c a : Reg)
  | subdec (c a b : Reg)
  | sub (c a b : Reg)
  | deca (c a : Reg)
  | lsl (c a : Reg)
  | lsr (c a : Reg)
  | asr (c a : Reg)
  | asl (c a : Reg)
  | jfNeg (target : Word)
  | jfZero (target : Word)
  | jfCarry (target : Word)
  | jfNegzero (target : Word)
  | jfTrue (target : Word)
  | jfOverflow (target : Word)
  | jtNeg (target : Word)
  | jtZero (target : Word)
  | jtCarry (target : Word)
  | jtNegzero (target : Word)
  | jtTrue (target : Word)
  | jtOverflow (target : Word)
  | j (target : Word)
  | jal (b : Reg)
  | jr (b : Reg)
  | nop
deriving DecidableEq, Repr

/-- Why a word is no instruction: one name per clause of 30_encoding.md R77. -/
inductive Illegal where
  /-- `grp` is 110 or 111. -/
  | reservedGroup
  /-- `grp` is 000 and some other bit is set: only NOP_WORD is nop (R71). -/
  | notNopWord
  /-- `aluop` is 10110 to 11111 (R73). -/
  | unassignedAluop
  /-- `memop` is neither 10100 nor 10110 (R74). -/
  | unassignedMemop
  /-- `cond` is 0110 to 1111 (R75). -/
  | unassignedCond
  /-- A must-be-zero bit is set (R76). -/
  | mustBeZero
  /-- Fewer than the four bytes of an instruction word were given (R60). -/
  | truncated
deriving DecidableEq, Repr

end Sys2Proof
end

