-- ==== Sys2Proof/WellFormed.lean ====
section
/-! DEFINITION. Which instructions an encoding can hold: the ranges of the immediates, spec/30_encoding.md R72.
Register fields and Const8 are in range by their types. -/

namespace Sys2Proof

/-- `Const` of `loadlit`: -32768 to 32767 (R72). -/
def constFits (imm : Word) : Bool :=
  decide (-2 ^ (Config.loadlitBits - 1) ≤ imm.toInt)
  && decide (imm.toInt < 2 ^ (Config.loadlitBits - 1))

/-- `Destino` of `jf` and `jt`: 20 bits (R68, R72). -/
def destino20Fits (target : Word) : Bool := decide (target.toNat < 2 ^ Config.destBitsI)

/-- `Destino` of `j`: 24 bits (R69, R72). -/
def destino24Fits (target : Word) : Bool := decide (target.toNat < 2 ^ Config.destBitsII)

/-- The instruction has an encoding. -/
def Instr.wf : Instr → Bool
  | .load _ _ => true
  | .store _ _ => true
  | .loadlit _ imm => constFits imm
  | .lcl _ _ => true
  | .lch _ _ => true
  | .zeros _ => true
  | .and _ _ _ => true
  | .andnota _ _ _ => true
  | .passa _ _ => true
  | .xor _ _ _ => true
  | .or _ _ _ => true
  | .nor _ _ _ => true
  | .xnor _ _ _ => true
  | .passnota _ _ => true
  | .ornotb _ _ _ => true
  | .nand _ _ _ => true
  | .ones _ => true
  | .add _ _ _ => true
  | .addinc _ _ _ => true
  | .inca _ _ => true
  | .subdec _ _ _ => true
  | .sub _ _ _ => true
  | .deca _ _ => true
  | .lsl _ _ => true
  | .lsr _ _ => true
  | .asr _ _ => true
  | .asl _ _ => true
  | .jfNeg target => destino20Fits target
  | .jfZero target => destino20Fits target
  | .jfCarry target => destino20Fits target
  | .jfNegzero target => destino20Fits target
  | .jfTrue target => destino20Fits target
  | .jfOverflow target => destino20Fits target
  | .jtNeg target => destino20Fits target
  | .jtZero target => destino20Fits target
  | .jtCarry target => destino20Fits target
  | .jtNegzero target => destino20Fits target
  | .jtTrue target => destino20Fits target
  | .jtOverflow target => destino20Fits target
  | .j target => destino24Fits target
  | .jal _ => true
  | .jr _ => true
  | .nop => true

end Sys2Proof
end

