-- ==== Sys2Proof/Decode.lean ====
section
/-! DEFINITION. The decoder and the encoder: the layout of spec/30_encoding.md R60 to R79 (the spec's own, D11; log 8).
No other file knows a bit position of an instruction. -/

namespace Sys2Proof

/-- The four bytes of a word, the byte at the lowest offset first: big-endian (20_memory.md R40, R41). -/
def wordBytes (w : Word) : List Byte :=
  [w.extractLsb' 24 8, w.extractLsb' 16 8, w.extractLsb' 8 8, w.extractLsb' 0 8]

/-- The word whose bytes at offsets 0, 1, 2, 3 are the arguments in order (20_memory.md R41). -/
def joinBytes (b0 b1 b2 b3 : Byte) : Word := b0 ++ b1 ++ b2 ++ b3

/-- `sext_32` of the 16-bit `Const` (R72). -/
def signExtend16 (k : BitVec Config.loadlitBits) : Word := Config.loadlitExt k

/-- `zext_32` of the 20-bit `Destino` of jf and jt (R72). -/
def zeroExtend20 (d : BitVec Config.destBitsI) : Word := Config.destMode d

/-- `zext_32` of the 24-bit `Destino` of j (R72). -/
def zeroExtend24 (d : BitVec Config.destBitsII) : Word := Config.destMode d

/-! ## Fields (R62 to R72) -/

/-- `grp`, bits 31:29 (R62). -/
def fieldGrp (w : Word) : BitVec 3 := w.extractLsb' 29 3

/-- `aluop` or `memop`, bits 28:24 (R63, R64); must be zero in format K-I (R65). -/
def fieldOp (w : Word) : BitVec 5 := w.extractLsb' 24 5

/-- `c`, bits 23:20 (R72). -/
def fieldC (w : Word) : Reg := w.extractLsb' 20 4

/-- `a`, bits 19:16 (R72). -/
def fieldA (w : Word) : Reg := w.extractLsb' 16 4

/-- `b`, bits 15:12 (R72). -/
def fieldB (w : Word) : Reg := w.extractLsb' 12 4

/-- Bits 11:0, zero in formats A, M, J-III and J-IV (R63, R64, R70). -/
def fieldLow (w : Word) : BitVec 12 := w.extractLsb' 0 12

/-- `Const` of loadlit, bits 15:0 (R65). -/
def fieldConst (w : Word) : BitVec Config.loadlitBits := w.extractLsb' 0 Config.loadlitBits

/-- `Const8` of lcl and lch, bits 7:0 (R66). -/
def fieldConst8 (w : Word) : BitVec 8 := w.extractLsb' 0 8

/-- The bit `R` of formats K-II, bit 28: 0 lcl, 1 lch (R66). -/
def fieldHalfR (w : Word) : BitVec 1 := w.extractLsb' 28 1

/-- Bits 27:24, zero in format K-II (R66). -/
def fieldHalfHigh (w : Word) : BitVec 4 := w.extractLsb' 24 4

/-- Bits 19:8, zero in format K-II (R66). -/
def fieldHalfMid (w : Word) : BitVec 12 := w.extractLsb' 8 12

/-- `jop`, bits 28:27 (R67). -/
def fieldJop (w : Word) : BitVec 2 := w.extractLsb' 27 2

/-- `cond`, bits 23:20 (R68). -/
def fieldCond (w : Word) : BitVec 4 := w.extractLsb' 20 4

/-- Bits 26:24, zero in formats J-I and J-II (R68, R69). -/
def fieldJumpHigh (w : Word) : BitVec 3 := w.extractLsb' 24 3

/-- `Destino` of jf and jt, bits 19:0 (R68). -/
def fieldDestino20 (w : Word) : BitVec Config.destBitsI := w.extractLsb' 0 Config.destBitsI

/-- `Destino` of j, bits 23:0 (R69). -/
def fieldDestino24 (w : Word) : BitVec Config.destBitsII := w.extractLsb' 0 Config.destBitsII

/-- The bit `R` of formats J-III and J-IV, bit 26: 0 jal, 1 jr (R70). -/
def fieldJumpR (w : Word) : BitVec 1 := w.extractLsb' 26 1

/-- Bits 25:16, zero in formats J-III and J-IV (R70). -/
def fieldJumpMid (w : Word) : BitVec 10 := w.extractLsb' 16 10

/-! ## Decoding (R79) -/

/-- The instruction, unless a must-be-zero bit of its format is set (R76, R77). -/
def requireZero (bitsAreZero : Bool) (i : Instr) : Except Illegal Instr :=
  if bitsAreZero then .ok i else .error .mustBeZero

/-- Format A with the operand `c` alone (R63, R76). -/
def decodeC (w : Word) (mk : Reg → Instr) : Except Illegal Instr :=
  requireZero (fieldA w == 0#4 && fieldB w == 0#4 && fieldLow w == 0#12) (mk (fieldC w))

/-- Formats A and M with the operands `c` and `a` (R63, R64, R76). -/
def decodeCA (w : Word) (mk : Reg → Reg → Instr) : Except Illegal Instr :=
  requireZero (fieldB w == 0#4 && fieldLow w == 0#12) (mk (fieldC w) (fieldA w))

/-- Format A with the operands `c`, `a` and `b` (R63, R76). -/
def decodeCAB (w : Word) (mk : Reg → Reg → Reg → Instr) : Except Illegal Instr :=
  requireZero (fieldLow w == 0#12) (mk (fieldC w) (fieldA w) (fieldB w))

/-- Format M with the operands `a` and `b` (R64, R76). -/
def decodeAB (w : Word) (mk : Reg → Reg → Instr) : Except Illegal Instr :=
  requireZero (fieldC w == 0#4 && fieldLow w == 0#12) (mk (fieldA w) (fieldB w))

/-- Format A: the ALU operation codes (R73). -/
def decodeAlu (w : Word) : Except Illegal Instr :=
  match fieldOp w with
  | 0b00000#5 => decodeC w .zeros
  | 0b00001#5 => decodeCAB w .and
  | 0b00010#5 => decodeCAB w .andnota
  | 0b00011#5 => decodeCA w .passa
  | 0b00100#5 => decodeCAB w .xor
  | 0b00101#5 => decodeCAB w .or
  | 0b00110#5 => decodeCAB w .nor
  | 0b00111#5 => decodeCAB w .xnor
  | 0b01000#5 => decodeCA w .passnota
  | 0b01001#5 => decodeCAB w .ornotb
  | 0b01010#5 => decodeCAB w .nand
  | 0b01011#5 => decodeC w .ones
  | 0b01100#5 => decodeCAB w .add
  | 0b01101#5 => decodeCAB w .addinc
  | 0b01110#5 => decodeCA w .inca
  | 0b01111#5 => decodeCAB w .subdec
  | 0b10000#5 => decodeCAB w .sub
  | 0b10001#5 => decodeCA w .deca
  | 0b10010#5 => decodeCA w .lsl
  | 0b10011#5 => decodeCA w .lsr
  | 0b10100#5 => decodeCA w .asr
  | 0b10101#5 => decodeCA w .asl
  | _ => .error .unassignedAluop

/-- Format M: load and store (R64, R74). -/
def decodeMemory (w : Word) : Except Illegal Instr :=
  match fieldOp w with
  | 0b10100#5 => decodeCA w .load
  | 0b10110#5 => decodeAB w .store
  | _ => .error .unassignedMemop

/-- Format K-I: loadlit (R65). -/
def decodeLoadlit (w : Word) : Except Illegal Instr :=
  requireZero (fieldOp w == 0#5 && fieldA w == 0#4) (.loadlit (fieldC w) (signExtend16 (fieldConst w)))

/-- Format K-II: the bit `R` (28) is 0 for lcl, 1 for lch; bits 27:24 and 19:8 are zero (R66). -/
def decodeHalf (w : Word) : Except Illegal Instr :=
  requireZero (fieldHalfHigh w == 0#4 && fieldHalfMid w == 0#12)
    (if fieldHalfR w = 1#1 then .lch (fieldC w) (fieldConst8 w) else .lcl (fieldC w) (fieldConst8 w))

/-- The condition codes (R75, D13). -/
def decodeCond (code : BitVec 4) : Option Cond :=
  [Cond.neg, .zero, .carry, .negzero, .true, .overflow].find? fun cond => Config.condCodes cond == code

/-- The row of the table for `jf` with a condition (R82). -/
def jumpFalse (cond : Cond) (target : Word) : Instr :=
  match cond with
  | .neg => .jfNeg target
  | .zero => .jfZero target
  | .carry => .jfCarry target
  | .negzero => .jfNegzero target
  | .true => .jfTrue target
  | .overflow => .jfOverflow target

/-- The row of the table for `jt` with a condition (R82). -/
def jumpTrue (cond : Cond) (target : Word) : Instr :=
  match cond with
  | .neg => .jtNeg target
  | .zero => .jtZero target
  | .carry => .jtCarry target
  | .negzero => .jtNegzero target
  | .true => .jtTrue target
  | .overflow => .jtOverflow target

/-- Format J-I: bits 26:24 are zero, then the condition and the 20-bit Destino (R67, R68). -/
def decodeCondJump (w : Word) (mk : Cond → Word → Instr) : Except Illegal Instr :=
  match decodeCond (fieldCond w) with
  | some cond => requireZero (fieldJumpHigh w == 0#3) (mk cond (zeroExtend20 (fieldDestino20 w)))
  | none => .error .unassignedCond

/-- Formats J-III and J-IV: the bit `R` (26) is 0 for jal, 1 for jr; bits 25:16 and 11:0 are zero (R67, R70). -/
def decodeRegisterJump (w : Word) : Except Illegal Instr :=
  requireZero (fieldJumpMid w == 0#10 && fieldLow w == 0#12)
    (if fieldJumpR w = 1#1 then .jr (fieldB w) else .jal (fieldB w))

/-- Formats J (R67). -/
def decodeControl (w : Word) : Except Illegal Instr :=
  match fieldJop w with
  | 0b00#2 => decodeCondJump w jumpFalse
  | 0b01#2 => decodeCondJump w jumpTrue
  | 0b10#2 => requireZero (fieldJumpHigh w == 0#3) (.j (zeroExtend24 (fieldDestino24 w)))
  | _ => decodeRegisterJump w

/-- The instruction a word is, or the name of the clause of R77 that refuses it. Total (R79). -/
def decode (w : Word) : Except Illegal Instr :=
  match fieldGrp w with
  | 0b000#3 => if w = Config.nopWord then .ok .nop else .error .notNopWord
  | 0b001#3 => decodeAlu w
  | 0b010#3 => decodeMemory w
  | 0b011#3 => decodeLoadlit w
  | 0b100#3 => decodeHalf w
  | 0b101#3 => decodeControl w
  | _ => .error .reservedGroup

/-- The instruction that the first four of some bytes are, as a program image lays them out (R60, 20_memory.md R41). -/
def decodeBytes : List Byte → Except Illegal Instr
  | b0 :: b1 :: b2 :: b3 :: _ => decode (joinBytes b0 b1 b2 b3)
  | _ => .error .truncated

/-- The instruction of an opcode-table word `w` of `nbits` bits, numbered as spec/opcode_table.json numbers them; the bits
above `nbits` are zero, and a bit above 31 is no bit of the instruction (log 22). -/
def decodeTableWord (nbits w : Nat) : Option Instr :=
  match decodeBytes (wordBytes (BitVec.ofNat 32 (w % 2 ^ nbits))) with
  | .ok i => some i
  | .error _ => none

/-! ## Encoding (R62 to R75) -/

/-- Format A (R63). -/
def encodeA (op : BitVec 5) (c a b : Reg) : Word := 0b001#3 ++ op ++ c ++ a ++ b ++ 0#12

/-- Format M (R64). -/
def encodeM (op : BitVec 5) (c a b : Reg) : Word := 0b010#3 ++ op ++ c ++ a ++ b ++ 0#12

/-- Format K-I (R65). -/
def encodeKI (c : Reg) (k : BitVec Config.loadlitBits) : Word := 0b011#3 ++ 0#5 ++ c ++ 0#4 ++ k

/-- Format K-II (R66). -/
def encodeKII (r : BitVec 1) (c : Reg) (k : BitVec 8) : Word := 0b100#3 ++ r ++ 0#4 ++ c ++ 0#12 ++ k

/-- `COND_CODES`: the code of each condition (R75, D13). -/
def encodeCond (cond : Cond) : BitVec 4 := Config.condCodes cond

/-- Format J-I (R68). -/
def encodeJI (jop : BitVec 2) (cond : Cond) (target : Word) : Word :=
  0b101#3 ++ jop ++ 0#3 ++ encodeCond cond ++ target.setWidth Config.destBitsI

/-- Format J-II (R69). -/
def encodeJII (target : Word) : Word := 0b101#3 ++ 0b10#2 ++ 0#3 ++ target.setWidth Config.destBitsII

/-- Formats J-III and J-IV (R70). -/
def encodeJR (r : BitVec 1) (b : Reg) : Word := 0b101#3 ++ 0b11#2 ++ r ++ 0#10 ++ b ++ 0#12

/-- The word of a well-formed instruction. -/
def encode : Instr → Word
  | .load c a => encodeM 0b10100#5 c a 0#4
  | .store a b => encodeM 0b10110#5 0#4 a b
  | .loadlit c imm => encodeKI c (imm.setWidth Config.loadlitBits)
  | .lcl c k => encodeKII 0#1 c k
  | .lch c k => encodeKII 1#1 c k
  | .zeros c => encodeA 0b00000#5 c 0#4 0#4
  | .and c a b => encodeA 0b00001#5 c a b
  | .andnota c a b => encodeA 0b00010#5 c a b
  | .passa c a => encodeA 0b00011#5 c a 0#4
  | .xor c a b => encodeA 0b00100#5 c a b
  | .or c a b => encodeA 0b00101#5 c a b
  | .nor c a b => encodeA 0b00110#5 c a b
  | .xnor c a b => encodeA 0b00111#5 c a b
  | .passnota c a => encodeA 0b01000#5 c a 0#4
  | .ornotb c a b => encodeA 0b01001#5 c a b
  | .nand c a b => encodeA 0b01010#5 c a b
  | .ones c => encodeA 0b01011#5 c 0#4 0#4
  | .add c a b => encodeA 0b01100#5 c a b
  | .addinc c a b => encodeA 0b01101#5 c a b
  | .inca c a => encodeA 0b01110#5 c a 0#4
  | .subdec c a b => encodeA 0b01111#5 c a b
  | .sub c a b => encodeA 0b10000#5 c a b
  | .deca c a => encodeA 0b10001#5 c a 0#4
  | .lsl c a => encodeA 0b10010#5 c a 0#4
  | .lsr c a => encodeA 0b10011#5 c a 0#4
  | .asr c a => encodeA 0b10100#5 c a 0#4
  | .asl c a => encodeA 0b10101#5 c a 0#4
  | .jfNeg t => encodeJI 0b00#2 .neg t
  | .jfZero t => encodeJI 0b00#2 .zero t
  | .jfCarry t => encodeJI 0b00#2 .carry t
  | .jfNegzero t => encodeJI 0b00#2 .negzero t
  | .jfTrue t => encodeJI 0b00#2 .true t
  | .jfOverflow t => encodeJI 0b00#2 .overflow t
  | .jtNeg t => encodeJI 0b01#2 .neg t
  | .jtZero t => encodeJI 0b01#2 .zero t
  | .jtCarry t => encodeJI 0b01#2 .carry t
  | .jtNegzero t => encodeJI 0b01#2 .negzero t
  | .jtTrue t => encodeJI 0b01#2 .true t
  | .jtOverflow t => encodeJI 0b01#2 .overflow t
  | .j t => encodeJII t
  | .jal b => encodeJR 0#1 b
  | .jr b => encodeJR 1#1 b
  | .nop => Config.nopWord

end Sys2Proof
end

