-- ==== Sys2Proof/Machine/State.lean ====
section
/-! DEFINITION. The state of the machine (spec/10_state.md), the reasons a step can stop (spec/60_exceptions.md R151) and
the state after reset (R36). The whole architectural state is sixteen registers, the pc, four flags and two memories. -/

namespace Sys2Proof.Machine

/-- RF, the flags register (10_state.md R27). -/
structure Flags where
  neg : FlagBit
  zero : FlagBit
  carry : FlagBit
  overflow : FlagBit
deriving DecidableEq, Repr

/-- A memory in the byte view of 20_memory.md R41: byte `k` of word `n` stands at key `4n + k`, the most significant
byte at `k = 0`. A key that is not listed has no value. Keys rise strictly (`Memory.wf`). -/
abbrev Memory := List Host.Cell

/-- The state (10_state.md). -/
structure State where
  /-- r0 to r15 (R20, R21); `readReg` and `writeReg` give r0 its behaviour (R22). -/
  regs : Vector Word 16
  /-- The word address of the instruction being executed (R24). -/
  pc : BitVec Config.pcBits
  /-- RF (R27). -/
  flags : Flags
  /-- The data memory (R32). -/
  dmem : Memory
  /-- The instruction memory: the program image (R33); no step writes it. -/
  imem : Memory
  /-- `IMEM_WORDS`, a parameter of the run (R33, D6; log 6); no step writes it. -/
  imemWords : Nat
  /-- `DMEM_WORDS`, a parameter of the run (R32, D6; log 6); no step writes it. -/
  dmemWords : Nat
  /-- `R0_ZERO`, a parameter of the run: whether register 0 reads zero and ignores writes (R22, D2; log 9); no step writes
  it. -/
  r0Zero : Bool
  /-- The model's own: how many free values have been drawn (log 4). -/
  draws : Nat
deriving DecidableEq, Repr

/-- The model-level faults, the complete list of 60_exceptions.md R151. The state is the one before the step. -/
inductive Fault where
  /-- The fetch at `pc` is beyond `IMEM_WORDS` or finds no word of the image (20_memory.md R47, 70_reset_and_hazards.md
  R172). Raised by `fetch`. Safe: the model stops where no source gives a behaviour. -/
  | fetchOutOfRange (pc : Word)
  /-- The fetched word matches no row of the table (30_encoding.md R77). Raised by `step`. Safe: as above. -/
  | illegalEncoding (pc word : Word)
  /-- The address of a load or store is at or beyond `DMEM_WORDS` (20_memory.md R47). Raised by `memRead` and `memWrite`.
  Safe: as above. -/
  | dataOutOfRange (addr : Word)
deriving DecidableEq, Repr

/-- The refusals: the model refuses nothing. -/
inductive Refusal where
  /-- An instruction with no meaning yet. Raised by no arm of `exec`. Safe. -/
  | notModelled (mnemonic : String)
deriving DecidableEq, Repr

/-- What a step answers. -/
abbrev Result := Host.Outcome State Fault Refusal

/-- The state after reset on a machine with memories of the given sizes and the given `R0_ZERO` (R36, D2, D6). The pc
is RESET_PC, no memory byte is listed. R36 leaves r1 to r15 and the flags unspecified: zero here, DESIGN CHOICE,
unsafe (log 1, log 2). -/
def State.resetWith (imemWords dmemWords : Nat) (r0Zero : Bool) : State :=
  { regs := Vector.replicate 16 0#32
    pc := Config.resetPc
    flags := { neg := .bit false, zero := .bit false, carry := .bit false, overflow := .bit false }
    dmem := []
    imem := []
    imemWords := imemWords
    dmemWords := dmemWords
    r0Zero := r0Zero
    draws := 0 }

/-- The state after reset; the sizes are the model's DESIGN CHOICE (log 6), `R0_ZERO` is the spec's value (log 9). -/
def State.reset : State :=
  State.resetWith Config.imemWordsAtReset Config.dmemWordsAtReset Config.r0Zero

end Sys2Proof.Machine
end

