-- ==== Sys2Proof/Machine/Memory.lean ====
section
/-! DEFINITION. Reading and writing a memory in its byte view: spec/20_memory.md R40 to R45. -/

namespace Sys2Proof.Machine

/-- The canonical form: keys strictly rising. An unlisted key has no value, so no entry equals what it would read as. -/
abbrev Memory.wf (m : Memory) : Prop := m.Pairwise (fun x y => x.1 < y.1)

/-- The byte at a key, if one is listed. -/
def readByte : Memory → Nat → Option Byte
  | [], _ => none
  | (k, v) :: rest, a => if k = a then some v else readByte rest a

/-- The memory with one byte written, its keys still rising. -/
def writeByte : Memory → Nat → Byte → Memory
  | [], a, v => [(a, v)]
  | (k, w) :: rest, a, v =>
    if a < k then (a, v) :: (k, w) :: rest
    else if k = a then (a, v) :: rest
    else (k, w) :: writeByte rest a v

/-- The key of byte `offset` of the word at address `n` (R41, R42). -/
def byteKey (n offset : Nat) : Nat := Config.addrUnitBytes * n + offset

/-- Whether every byte of word `n` is listed. -/
def wordListed (m : Memory) (n : Nat) : Bool :=
  (readByte m (byteKey n 0)).isSome && (readByte m (byteKey n 1)).isSome
    && (readByte m (byteKey n 2)).isSome && (readByte m (byteKey n 3)).isSome

/-- Word `n`, a byte that is not listed taken from `free` (R41, R43; log 3, log 15). -/
def readWordOr (m : Memory) (n : Nat) (free : Word) : Word :=
  joinBytes
    ((readByte m (byteKey n 0)).getD (free.extractLsb' 24 8))
    ((readByte m (byteKey n 1)).getD (free.extractLsb' 16 8))
    ((readByte m (byteKey n 2)).getD (free.extractLsb' 8 8))
    ((readByte m (byteKey n 3)).getD (free.extractLsb' 0 8))

/-- Word `n`, if every byte of it is listed (R41). -/
def readWord (m : Memory) (n : Nat) : Option Word :=
  if wordListed m n then some (readWordOr m n 0#32) else none

/-- The memory with word `n` written: all 32 bits, and no other word (R41, R44). -/
def writeWord (m : Memory) (n : Nat) (v : Word) : Memory :=
  writeByte (writeByte (writeByte (writeByte m
    (byteKey n 0) (v.extractLsb' 24 8))
    (byteKey n 1) (v.extractLsb' 16 8))
    (byteKey n 2) (v.extractLsb' 8 8))
    (byteKey n 3) (v.extractLsb' 0 8)

/-- Words placed from word address `n` upward: a program image (70_reset_and_hazards.md R172). -/
def writeWords (m : Memory) (n : Nat) : List Word → Memory
  | [] => m
  | w :: ws => writeWords (writeWord m n w) (n + 1) ws

/-- Words placed at the addresses that name them: the data words of a start state (R172). -/
def writePairs (m : Memory) : List (Word × Word) → Memory
  | [] => m
  | (addr, v) :: rest => writePairs (writeWord m addr.toNat v) rest

end Sys2Proof.Machine
end

