-- ==== Sys2Proof/Machine/Ops.lean ====
section
/-! DEFINITION. The named operations over the state: the pseudocode primitives of spec/00_scope.md R14.
The hardware takes no exception and returns from none (spec/60_exceptions.md R150, R156, R157), so there is no operation
for either; `raise Fault(...)` (R151) is an `Except.error` that ends the step with the state as it was. -/

namespace Sys2Proof.Machine

/-- Whether a register is the hardwired one: register 0, where `R0_ZERO` holds (10_state.md R22, D2; log 9). -/
def isHardwired (s : State) (r : Reg) : Bool := s.r0Zero && r == 0#4

/-- `x[r]`: a hardwired register reads zero (10_state.md R22). -/
def readReg (s : State) (r : Reg) : Word :=
  if isHardwired s r then 0#32 else s.regs[r.toNat]'r.isLt

/-- `x[r] <- v`: a write to a hardwired register changes nothing (10_state.md R22). -/
def writeReg (s : State) (r : Reg) (v : Word) : State :=
  if isHardwired s r then s else { s with regs := s.regs.set r.toNat v r.isLt }

/-- `pc <- t`. -/
def setPc (s : State) (t : Word) : State := { s with pc := t }

/-- The address of the next instruction: `(pc + 1) mod 2^32` (10_state.md R25). -/
def nextPc (s : State) : Word := s.pc + 1#32

/-- `pc <- pc + 1`, the end of every instruction that is not a taken control transfer (10_state.md R25). -/
def advance (s : State) : State := setPc s (nextPc s)

/-- RF replaced. -/
def setFlags (s : State) (f : Flags) : State := { s with flags := f }

/-- The data memory replaced. -/
def setDmem (s : State) (m : Memory) : State := { s with dmem := m }

/-- The instruction memory replaced: only what loads a program uses this (10_state.md R33). -/
def setImem (s : State) (m : Memory) : State := { s with imem := m }

/-- The size of the instruction memory replaced: only what loads a program uses this (log 21). -/
def setImemWords (s : State) (n : Nat) : State := { s with imemWords := n }

/-- One more free value drawn (log 4). -/
def drawn (s : State) : State := { s with draws := s.draws + 1 }

/-- Whether a data address is implemented (20_memory.md R43, R46). -/
def dataImplemented (s : State) (addr : Word) : Bool := decide (addr.toNat < s.dmemWords)

/-- `MemRead(addr, 4)` (20_memory.md R43, R47): the word and the state after the read. The state changes only in the count
of draws, and only where some byte of the word has never been written (10_state.md R37; log 3, log 24). -/
def memRead (s : State) (addr : Word) : Except Fault (Word × State) :=
  if dataImplemented s addr then
    .ok (readWordOr s.dmem addr.toNat (Config.freeWord s.draws),
      if wordListed s.dmem addr.toNat then s else drawn s)
  else .error (.dataOutOfRange addr)

/-- `MemWrite(addr, 4, v)` (20_memory.md R44, R47). -/
def memWrite (s : State) (addr v : Word) : Except Fault State :=
  if dataImplemented s addr then .ok (setDmem s (writeWord s.dmem addr.toNat v))
  else .error (.dataOutOfRange addr)

/-- The memory a fetch reads: the instruction memory, unless `MEM_UNIFIED` (10_state.md R33, D5; log 10). -/
def fetchSpace (s : State) : Memory := if Config.memUnified then s.dmem else s.imem

/-- The memory a fetch reads, replaced: only what loads a program uses this (10_state.md R33). -/
def setFetchSpace (s : State) (m : Memory) : State := if Config.memUnified then setDmem s m else setImem s m

/-- The fetch at the pc (20_memory.md R47, 70_reset_and_hazards.md R172): beyond `IMEM_WORDS`, and where the image holds no
word, it faults (log 20). -/
def fetch (s : State) : Except Fault Word :=
  if s.pc.toNat < s.imemWords then
    match readWord (fetchSpace s) s.pc.toNat with
    | some w => .ok w
    | none => .error (.fetchOutOfRange s.pc)
  else .error (.fetchOutOfRange s.pc)

/-- One instruction word placed where the next fetch reads; the instruction memory is made large enough to hold that address
(log 7, log 21). -/
def placeAtPc (s : State) (w : Word) : State :=
  setImemWords (setFetchSpace s (writeWord (fetchSpace s) s.pc.toNat w))
    (if s.pc.toNat < s.imemWords then s.imemWords else s.pc.toNat + 1)

end Sys2Proof.Machine
end

