-- ==== Sys2Proof/Machine/Flags.lean ====
section
/-! DEFINITION. The flag computations (spec/00_scope.md R16, spec/10_state.md R27, R28, spec/42_alu.md R123) and the
conditions that read flags (spec/43_control_transfer.md R130). -/

namespace Sys2Proof.Machine

/-- `neg`: bit 31 of the result (10_state.md R27). -/
def negOf (r : Word) : Bool := r.getLsbD 31

/-- `zero`: the result is 0x00000000 (10_state.md R27). -/
def zeroOf (r : Word) : Bool := r == 0#32

/-- What `AddWithCarry` returns (00_scope.md R16). -/
structure AdderResult where
  result : Word
  carry : Bool
  overflow : Bool
deriving DecidableEq, Repr

/-- `AddWithCarry(x, y, cin)`: the exact unsigned and signed sums, then the 32-bit result (00_scope.md R16, D22). -/
def addWithCarry (x y : Word) (cin : Bool) : AdderResult :=
  let u : Nat := x.toNat + y.toNat + cin.toNat
  let s : Int := x.toInt + y.toInt + cin.toInt
  let r : Word := BitVec.ofNat 32 u
  { result := r, carry := decide (2 ^ 32 ≤ u), overflow := decide (s ≠ r.toInt) }

/-- Flags written "neg e zero" from a result; the others keep their value (42_alu.md R123). -/
def withNegZero (f : Flags) (r : Word) : Flags :=
  { f with neg := .bit (negOf r), zero := .bit (zeroOf r) }

/-- Flags written "neg, zero e carry" (42_alu.md R118). -/
def withNegZeroCarry (f : Flags) (r : Word) (carry : Bool) : Flags :=
  { withNegZero f r with carry := .bit carry }

/-- Flags written "todas" from an `AddWithCarry` (10_state.md R28, D21). -/
def flagsOfSum (sum : AdderResult) : Flags :=
  { neg := .bit (negOf sum.result), zero := .bit (zeroOf sum.result),
    carry := .bit sum.carry, overflow := .bit sum.overflow }

/-- Only `zero` written, to 1 (42_alu.md R100). -/
def withZeroSet (f : Flags) : Flags := { f with zero := .bit true }

/-- The flags after `asl`: `ASL_FLAGS`, which the source does not know (42_alu.md R121, U3; log 5). -/
def flagsAfterAsl : Flags :=
  { neg := Config.aslFlags .neg, zero := Config.aslFlags .zero, carry := Config.aslFlags .carry,
    overflow := Config.aslFlags .overflow }

/-! ## Reading flags (R29, R130) -/

/-- The stored flag of a name. -/
def flagNamed (f : Flags) : FlagName → FlagBit
  | .neg => f.neg
  | .zero => f.zero
  | .carry => f.carry
  | .overflow => f.overflow

/-- The flags with one of them set to a bit. -/
def withFlag (f : Flags) (name : FlagName) (b : Bool) : Flags :=
  match name with
  | .neg => { f with neg := .bit b }
  | .zero => { f with zero := .bit b }
  | .carry => { f with carry := .bit b }
  | .overflow => { f with overflow := .bit b }

/-- The bit a read of a flag yields: the stored bit, or a free one where it is unspecified (10_state.md R37; log 5). -/
def readFlag (s : State) (name : FlagName) : Bool :=
  match flagNamed s.flags name with
  | .bit b => b
  | .unspecified => Config.freeFlag s.draws name

/-- `holds(cond)`, evaluated on the stored flags (43_control_transfer.md R130). -/
def holds (s : State) : Cond → Bool
  | .neg => readFlag s .neg
  | .zero => readFlag s .zero
  | .carry => readFlag s .carry
  | .negzero => readFlag s .neg || readFlag s .zero
  | .true => !readFlag s .zero
  | .overflow => readFlag s .overflow

/-- The flags a condition names (43_control_transfer.md R130). -/
def condFlags : Cond → List FlagName
  | .neg => [.neg]
  | .zero => [.zero]
  | .carry => [.carry]
  | .negzero => [.neg, .zero]
  | .true => [.zero]
  | .overflow => [.overflow]

/-- The state after the flags of a condition have been read: one more draw if one of them was unspecified (log 24). -/
def afterFlagRead (s : State) (cond : Cond) : State :=
  if (condFlags cond).any (fun name => flagNamed s.flags name == .unspecified) then drawn s else s

end Sys2Proof.Machine
end

