-- ==== Sys2Proof/Machine/Operands.lean ====
section
/-! DEFINITION. The operand forms and the shared shapes of the instructions: spec/20_memory.md R49, spec/40_memory_access.md
R92, spec/42_alu.md R122 to R126, spec/43_control_transfer.md R136. Operands are read before anything is written (R14). -/

namespace Sys2Proof.Machine

/-- The effective address of load and store: the whole content of register `a` (40_memory_access.md R92). -/
def dataAddress (s : State) (a : Reg) : Word := readReg s a

/-- A logic result `r`: to `c`, with neg and zero (42_alu.md R122, R123). -/
def finishLogic (s : State) (c : Reg) (r : Word) : State :=
  advance (setFlags (writeReg s c r) (withNegZero s.flags r))

/-- An adder result: to `c`, with all four flags (42_alu.md R122, R125). -/
def finishSum (s : State) (c : Reg) (sum : AdderResult) : State :=
  advance (setFlags (writeReg s c sum.result) (flagsOfSum sum))

/-- A constant: to `c`, with no flag (41_constants.md R95 to R97, 42_alu.md R111). -/
def finishConstant (s : State) (c : Reg) (v : Word) : State := advance (writeReg s c v)

/-- `A` moved `SHIFT_AMOUNT` positions to the left, zeros in at bit 0 (42_alu.md R126). -/
def movedLeft (x : Word) : Word := x <<< Config.shiftAmount

/-- The last bit that a move to the left shifts out (42_alu.md R118, D22). -/
def shiftedOutLeft (x : Word) : Bool := x.getLsbD (32 - Config.shiftAmount)

/-- `A` moved `SHIFT_AMOUNT` positions to the right, zeros in at bit 31 (42_alu.md R126). -/
def movedRight (x : Word) : Word := x >>> Config.shiftAmount

/-- `A` moved `SHIFT_AMOUNT` positions to the right, copies of bit 31 in (42_alu.md R126). -/
def movedRightArith (x : Word) : Word := x.sshiftRight Config.shiftAmount

/-- `jf` (`sense = false`) and `jt` (`sense = true`): the jump is taken when the condition is `sense`
(43_control_transfer.md R131, R132); a taken jump is followed by its target at once (R136; log 12). -/
def condJump (s : State) (sense : Bool) (cond : Cond) (target : Word) : State :=
  setPc (afterFlagRead s cond) (if holds s cond = sense then target else nextPc s)

end Sys2Proof.Machine
end

