-- ==== Sys2Proof/Machine/Arithmetic.lean ====
section
/-! DEFINITION. The six adder instructions: spec/42_alu.md R112 to R117, R125. -/

namespace Sys2Proof.Machine

/-- `add c,a,b` (R112). -/
def execAdd (c a b : Reg) (s : State) : Result :=
  .next (finishSum s c (addWithCarry (readReg s a) (readReg s b) false))

/-- `addinc c,a,b` (R113). -/
def execAddinc (c a b : Reg) (s : State) : Result :=
  .next (finishSum s c (addWithCarry (readReg s a) (readReg s b) true))

/-- `inca c,a` (R114). -/
def execInca (c a : Reg) (s : State) : Result :=
  .next (finishSum s c (addWithCarry (readReg s a) 0x00000000#32 true))

/-- `subdec c,a,b` (R115). -/
def execSubdec (c a b : Reg) (s : State) : Result :=
  .next (finishSum s c (addWithCarry (readReg s a) (~~~(readReg s b)) false))

/-- `sub c,a,b` (R116). -/
def execSub (c a b : Reg) (s : State) : Result :=
  .next (finishSum s c (addWithCarry (readReg s a) (~~~(readReg s b)) true))

/-- `deca c,a` (R117). -/
def execDeca (c a : Reg) (s : State) : Result :=
  .next (finishSum s c (addWithCarry (readReg s a) 0xFFFFFFFF#32 false))

end Sys2Proof.Machine
end

