-- ==== Sys2Proof/Machine/Constants.lean ====
section
/-! DEFINITION. loadlit, lcl and lch: spec/41_constants.md. -/

namespace Sys2Proof.Machine

/-- `loadlit c, Const` (R95). -/
def execLoadlit (c : Reg) (imm : Word) (s : State) : Result := .next (finishConstant s c imm)

/-- `lcl c, Const8` (R96; log 14). -/
def execLcl (c : Reg) (const8 : BitVec 8) (s : State) : Result :=
  .next (finishConstant s c (const8.setWidth 32 ||| (readReg s c &&& 0x0000FF00#32)))

/-- `lch c, Const8` (R97; log 14). -/
def execLch (c : Reg) (const8 : BitVec 8) (s : State) : Result :=
  .next (finishConstant s c ((const8.setWidth 32 <<< 8) ||| (readReg s c &&& 0x000000FF#32)))

end Sys2Proof.Machine
end

