-- ==== Sys2Proof/Machine/Control.lean ====
section
/-! DEFINITION. The control transfers and nop: spec/43_control_transfer.md R130 to R136, spec/44_nop_halt.md R140. -/

namespace Sys2Proof.Machine

/-- `jf.neg Destino` (R131). -/
def execJfNeg (target : Word) (s : State) : Result := .next (condJump s false .neg target)

/-- `jf.zero Destino` (R131). -/
def execJfZero (target : Word) (s : State) : Result := .next (condJump s false .zero target)

/-- `jf.carry Destino` (R131). -/
def execJfCarry (target : Word) (s : State) : Result := .next (condJump s false .carry target)

/-- `jf.negzero Destino` (R131). -/
def execJfNegzero (target : Word) (s : State) : Result := .next (condJump s false .negzero target)

/-- `jf.true Destino` (R131). -/
def execJfTrue (target : Word) (s : State) : Result := .next (condJump s false .true target)

/-- `jf.overflow Destino` (R131). -/
def execJfOverflow (target : Word) (s : State) : Result := .next (condJump s false .overflow target)

/-- `jt.neg Destino` (R132). -/
def execJtNeg (target : Word) (s : State) : Result := .next (condJump s true .neg target)

/-- `jt.zero Destino` (R132). -/
def execJtZero (target : Word) (s : State) : Result := .next (condJump s true .zero target)

/-- `jt.carry Destino` (R132). -/
def execJtCarry (target : Word) (s : State) : Result := .next (condJump s true .carry target)

/-- `jt.negzero Destino` (R132). -/
def execJtNegzero (target : Word) (s : State) : Result := .next (condJump s true .negzero target)

/-- `jt.true Destino` (R132). -/
def execJtTrue (target : Word) (s : State) : Result := .next (condJump s true .true target)

/-- `jt.overflow Destino` (R132). -/
def execJtOverflow (target : Word) (s : State) : Result := .next (condJump s true .overflow target)

/-- `j Destino` (R133); at its own address it is the HALT idiom (44_nop_halt.md R141). -/
def execJ (target : Word) (s : State) : Result := .next (setPc s target)

/-- `jal b`: the target is read before the link is written (R134; log 11). -/
def execJal (b : Reg) (s : State) : Result :=
  .next (setPc (writeReg s Config.linkReg (nextPc s)) (readReg s b))

/-- `jr b` (R135). -/
def execJr (b : Reg) (s : State) : Result := .next (setPc s (readReg s b))

/-- `nop` (44_nop_halt.md R140). -/
def execNop (s : State) : Result := .next (advance s)

end Sys2Proof.Machine
end

