-- ==== Sys2Proof/Machine/Logic.lean ====
section
/-! DEFINITION. The constant and logic instructions of the ALU: spec/42_alu.md R100 to R111, R124. -/

namespace Sys2Proof.Machine

/-- `zeros c`: only the zero flag is written (R100; log 13). -/
def execZeros (c : Reg) (s : State) : Result :=
  .next (advance (setFlags (writeReg s c 0#32) (withZeroSet s.flags)))

/-- `and c,a,b` (R101). -/
def execAnd (c a b : Reg) (s : State) : Result := .next (finishLogic s c (readReg s a &&& readReg s b))

/-- `andnota c,a,b`: the complemented operand is `A` (R102). -/
def execAndnota (c a b : Reg) (s : State) : Result := .next (finishLogic s c (~~~(readReg s a) &&& readReg s b))

/-- `passa c,a` (R103). -/
def execPassa (c a : Reg) (s : State) : Result := .next (finishLogic s c (readReg s a))

/-- `xor c,a,b` (R104). -/
def execXor (c a b : Reg) (s : State) : Result := .next (finishLogic s c (readReg s a ^^^ readReg s b))

/-- `or c,a,b` (R105). -/
def execOr (c a b : Reg) (s : State) : Result := .next (finishLogic s c (readReg s a ||| readReg s b))

/-- `nor c,a,b` (R106). -/
def execNor (c a b : Reg) (s : State) : Result := .next (finishLogic s c (~~~(readReg s a ||| readReg s b)))

/-- `xnor c,a,b` (R107). -/
def execXnor (c a b : Reg) (s : State) : Result := .next (finishLogic s c (~~~(readReg s a ^^^ readReg s b)))

/-- `passnota c,a` (R108). -/
def execPassnota (c a : Reg) (s : State) : Result := .next (finishLogic s c (~~~(readReg s a)))

/-- `ornotb c,a,b`: the complemented operand is `B` (R109). -/
def execOrnotb (c a b : Reg) (s : State) : Result := .next (finishLogic s c (readReg s a ||| ~~~(readReg s b)))

/-- `nand c,a,b` (R110). -/
def execNand (c a b : Reg) (s : State) : Result := .next (finishLogic s c (~~~(readReg s a &&& readReg s b)))

/-- `ones c`: the value one, and no flag (R111; log 13). -/
def execOnes (c : Reg) (s : State) : Result := .next (finishConstant s c 1#32)

end Sys2Proof.Machine
end

