-- ==== Sys2Proof/Machine/MemoryAccess.lean ====
section
/-! DEFINITION. load and store: spec/40_memory_access.md. -/

namespace Sys2Proof.Machine

/-- `load c, a` (R90). -/
def execLoad (c a : Reg) (s : State) : Result :=
  match memRead s (dataAddress s a) with
  | .ok (v, s') => .next (advance (writeReg s' c v))
  | .error f => .fault f

/-- `store a, b` (R91). -/
def execStore (a b : Reg) (s : State) : Result :=
  match memWrite s (dataAddress s a) (readReg s b) with
  | .ok s' => .next (advance s')
  | .error f => .fault f

end Sys2Proof.Machine
end

