-- ==== Sys2Proof/Machine/Shift.lean ====
section
/-! DEFINITION. The four shifts: spec/42_alu.md R118 to R121, R126. -/

namespace Sys2Proof.Machine

/-- `lsl c,a`: carry is the bit shifted out (R118). -/
def execLsl (c a : Reg) (s : State) : Result :=
  let x := readReg s a
  let r := movedLeft x
  .next (advance (setFlags (writeReg s c r) (withNegZeroCarry s.flags r (shiftedOutLeft x))))

/-- `lsr c,a` (R119). -/
def execLsr (c a : Reg) (s : State) : Result := .next (finishLogic s c (movedRight (readReg s a)))

/-- `asr c,a` (R120). -/
def execAsr (c a : Reg) (s : State) : Result := .next (finishLogic s c (movedRightArith (readReg s a)))

/-- `asl c,a`: the bits of lsl; all four flags unspecified afterwards (R121; log 5, log 13). -/
def execAsl (c a : Reg) (s : State) : Result :=
  .next (advance (setFlags (writeReg s c (movedLeft (readReg s a))) flagsAfterAsl))

end Sys2Proof.Machine
end

