-- ==== Sys2Proof/Machine/Dispatch.lean ====
section
/-! DEFINITION. One arm per instruction, each one direct call of its meaning. -/

namespace Sys2Proof.Machine

/-- What an instruction does to a state. -/
def exec (i : Instr) (s : State) : Host.Outcome State Fault Refusal :=
  match i with
  | .load c a => Sys2Proof.Machine.execLoad c a s
  | .store a b => Sys2Proof.Machine.execStore a b s
  | .loadlit c imm => Sys2Proof.Machine.execLoadlit c imm s
  | .lcl c const8 => Sys2Proof.Machine.execLcl c const8 s
  | .lch c const8 => Sys2Proof.Machine.execLch c const8 s
  | .zeros c => Sys2Proof.Machine.execZeros c s
  | .and c a b => Sys2Proof.Machine.execAnd c a b s
  | .andnota c a b => Sys2Proof.Machine.execAndnota c a b s
  | .passa c a => Sys2Proof.Machine.execPassa c a s
  | .xor c a b => Sys2Proof.Machine.execXor c a b s
  | .or c a b => Sys2Proof.Machine.execOr c a b s
  | .nor c a b => Sys2Proof.Machine.execNor c a b s
  | .xnor c a b => Sys2Proof.Machine.execXnor c a b s
  | .passnota c a => Sys2Proof.Machine.execPassnota c a s
  | .ornotb c a b => Sys2Proof.Machine.execOrnotb c a b s
  | .nand c a b => Sys2Proof.Machine.execNand c a b s
  | .ones c => Sys2Proof.Machine.execOnes c s
  | .add c a b => Sys2Proof.Machine.execAdd c a b s
  | .addinc c a b => Sys2Proof.Machine.execAddinc c a b s
  | .inca c a => Sys2Proof.Machine.execInca c a s
  | .subdec c a b => Sys2Proof.Machine.execSubdec c a b s
  | .sub c a b => Sys2Proof.Machine.execSub c a b s
  | .deca c a => Sys2Proof.Machine.execDeca c a s
  | .lsl c a => Sys2Proof.Machine.execLsl c a s
  | .lsr c a => Sys2Proof.Machine.execLsr c a s
  | .asr c a => Sys2Proof.Machine.execAsr c a s
  | .asl c a => Sys2Proof.Machine.execAsl c a s
  | .jfNeg target => Sys2Proof.Machine.execJfNeg target s
  | .jfZero target => Sys2Proof.Machine.execJfZero target s
  | .jfCarry target => Sys2Proof.Machine.execJfCarry target s
  | .jfNegzero target => Sys2Proof.Machine.execJfNegzero target s
  | .jfTrue target => Sys2Proof.Machine.execJfTrue target s
  | .jfOverflow target => Sys2Proof.Machine.execJfOverflow target s
  | .jtNeg target => Sys2Proof.Machine.execJtNeg target s
  | .jtZero target => Sys2Proof.Machine.execJtZero target s
  | .jtCarry target => Sys2Proof.Machine.execJtCarry target s
  | .jtNegzero target => Sys2Proof.Machine.execJtNegzero target s
  | .jtTrue target => Sys2Proof.Machine.execJtTrue target s
  | .jtOverflow target => Sys2Proof.Machine.execJtOverflow target s
  | .j target => Sys2Proof.Machine.execJ target s
  | .jal b => Sys2Proof.Machine.execJal b s
  | .jr b => Sys2Proof.Machine.execJr b s
  | .nop => Sys2Proof.Machine.execNop s

end Sys2Proof.Machine
end

