-- ==== Sys2Proof/Machine/Step.lean ====
section
/-! DEFINITION. One step: fetch, decode, execute, in this order of faults (spec/60_exceptions.md R155). -/

namespace Sys2Proof.Machine

/-- One step. Nothing is added around `exec`: a meaning itself moves the pc (spec/10_state.md R25). -/
def step (s : State) : Host.Outcome State Fault Refusal :=
  match fetch s with
  | .error f => .fault f
  | .ok w =>
    match decode w with
    | .error _ => .fault (.illegalEncoding s.pc w)
    | .ok i => exec i s

/-- The state with one table word placed where `step` fetches next (log 7, log 21, log 22). -/
def State.withFetchWord (s : State) (nbits w : Nat) : State :=
  placeAtPc s (BitVec.ofNat 32 (w % 2 ^ nbits))

end Sys2Proof.Machine
end

