-- ==== Sys2Proof/Machine/Run.lean ====
section
/-! DEFINITION. The start of a run: spec/70_reset_and_hazards.md R172, spec/92_eei_decisions.md D6, D36. -/

namespace Sys2Proof.Machine

/-- What a run is given by (R172): the parameters that are arguments of a run, the program image from address 0 upward, and
the values the start state gives to data words and, for a test, to registers and flags. -/
structure RunStart where
  imemWords : Nat
  dmemWords : Nat
  r0Zero : Bool
  image : List Word
  data : List (Word × Word)
  registers : List (Reg × Word)
  flags : List (FlagName × Bool)
deriving DecidableEq, Repr

/-- The memory sizes are in the range of D6, the image has at most `IMEM_WORDS` words (R172), the data words named are
implemented ones (10_state.md R32). -/
def RunStart.wf (r : RunStart) : Bool :=
  decide (1 ≤ r.imemWords ∧ r.imemWords ≤ 2 ^ 32) && decide (1 ≤ r.dmemWords ∧ r.dmemWords ≤ 2 ^ 32)
    && decide (r.image.length ≤ r.imemWords) && r.data.all (fun word => decide (word.1.toNat < r.dmemWords))

/-- A program image placed from instruction address 0 upward (R172). -/
def loadImage (s : State) (image : List Word) : State := setFetchSpace s (writeWords (fetchSpace s) 0 image)

/-- Data words given to a start state, the last one named for an address counting (R172; log 25). -/
def placeData (s : State) (data : List (Word × Word)) : State := setDmem s (writePairs s.dmem data)

/-- Registers given to a start state, the last value named for a register counting (R172; log 25). -/
def placeRegisters (s : State) : List (Reg × Word) → State
  | [] => s
  | (r, v) :: rest => placeRegisters (writeReg s r v) rest

/-- Flags given to a start state, the last value named for a flag counting (R172; log 25). -/
def placeFlags (s : State) : List (FlagName × Bool) → State
  | [] => s
  | (name, b) :: rest => placeFlags (setFlags s (withFlag s.flags name b)) rest

/-- The start state a run describes: reset, then the image, the data words, the registers and the flags (R172). -/
def RunStart.state (r : RunStart) : State :=
  placeFlags
    (placeRegisters
      (placeData (loadImage (State.resetWith r.imemWords r.dmemWords r.r0Zero) r.image) r.data)
      r.registers)
    r.flags

/-- The start of a run; no run is given by an image or a data word that does not fit (R172). -/
def startOfRun (r : RunStart) : Option State := if r.wf then some r.state else none

end Sys2Proof.Machine
end

