-- ==== Sys2Proof/Safety.lean ====
section
/-! DEFINITION. What a run is, when it has ended, and what a safe run is: spec/44_nop_halt.md R142,
spec/60_exceptions.md R151. -/

namespace Sys2Proof.Safety

open Sys2Proof.Machine

/-- The word at the pc decodes to `j` with its target equal to the pc: the only final states (R142). -/
def halted (s : State) : Bool :=
  match fetch s with
  | .error _ => false
  | .ok w => decode w == .ok (.j s.pc)

/-- The state after `k` steps, if none of them stopped. -/
def runs (k : Nat) (s t : State) : Prop := Sys2Proof.core.run k s = .next t

/-- A run from `s` ends in `t`: `t` is reached and halted; the registers, flags and data memory of `t` are its result
(R142). -/
def endsIn (s t : State) : Prop := ∃ k, runs k s t ∧ halted t = true

/-- No step of a run from `s` faults (R151). -/
def neverFaults (s : State) : Prop := ∀ k, ∃ t, runs k s t

/-- What every step keeps: where `R0_ZERO` holds r0's cell is zero (10_state.md R22), both memories are in canonical form,
no data byte beyond `DMEM_WORDS` is listed (20_memory.md R46, R47), the sizes are in the range of D6. -/
structure Inv (s : State) : Prop where
  r0_zero : s.r0Zero = true → s.regs[0] = 0#32
  dmem_wf : Memory.wf s.dmem
  imem_wf : Memory.wf s.imem
  dmem_implemented : ∀ cell ∈ s.dmem, cell.1 < 4 * s.dmemWords
  imem_size : 1 ≤ s.imemWords ∧ s.imemWords ≤ 2 ^ 32
  dmem_size : 1 ≤ s.dmemWords ∧ s.dmemWords ≤ 2 ^ 32

end Sys2Proof.Safety
end

