-- ==== Sys2Proof/Table.lean ====
section
/-! DEFINITION. spec/opcode_table.json as data: one row per instruction, its mnemonic, mask and match (30_encoding.md R76,
R82). Transcribed from the table, apart from the decoder and the encoder, which follow the format tables of R62 to R75. -/

namespace Sys2Proof

/-- A row of the table: a word is the row's instruction exactly when `word & mask = pattern` (R76). -/
structure TableRow where
  mnemonic : String
  mask : Word
  pattern : Word
deriving DecidableEq, Repr

/-- The row of an instruction (R82). -/
def rowOf : Instr → TableRow
  | .load _ _ => ⟨"load", 0xFF00FFFF#32, 0x54000000#32⟩
  | .store _ _ => ⟨"store", 0xFFF00FFF#32, 0x56000000#32⟩
  | .loadlit _ _ => ⟨"loadlit", 0xFF0F0000#32, 0x60000000#32⟩
  | .lcl _ _ => ⟨"lcl", 0xFF0FFF00#32, 0x80000000#32⟩
  | .lch _ _ => ⟨"lch", 0xFF0FFF00#32, 0x90000000#32⟩
  | .zeros _ => ⟨"zeros", 0xFF0FFFFF#32, 0x20000000#32⟩
  | .and _ _ _ => ⟨"and", 0xFF000FFF#32, 0x21000000#32⟩
  | .andnota _ _ _ => ⟨"andnota", 0xFF000FFF#32, 0x22000000#32⟩
  | .passa _ _ => ⟨"passa", 0xFF00FFFF#32, 0x23000000#32⟩
  | .xor _ _ _ => ⟨"xor", 0xFF000FFF#32, 0x24000000#32⟩
  | .or _ _ _ => ⟨"or", 0xFF000FFF#32, 0x25000000#32⟩
  | .nor _ _ _ => ⟨"nor", 0xFF000FFF#32, 0x26000000#32⟩
  | .xnor _ _ _ => ⟨"xnor", 0xFF000FFF#32, 0x27000000#32⟩
  | .passnota _ _ => ⟨"passnota", 0xFF00FFFF#32, 0x28000000#32⟩
  | .ornotb _ _ _ => ⟨"ornotb", 0xFF000FFF#32, 0x29000000#32⟩
  | .nand _ _ _ => ⟨"nand", 0xFF000FFF#32, 0x2A000000#32⟩
  | .ones _ => ⟨"ones", 0xFF0FFFFF#32, 0x2B000000#32⟩
  | .add _ _ _ => ⟨"add", 0xFF000FFF#32, 0x2C000000#32⟩
  | .addinc _ _ _ => ⟨"addinc", 0xFF000FFF#32, 0x2D000000#32⟩
  | .inca _ _ => ⟨"inca", 0xFF00FFFF#32, 0x2E000000#32⟩
  | .subdec _ _ _ => ⟨"subdec", 0xFF000FFF#32, 0x2F000000#32⟩
  | .sub _ _ _ => ⟨"sub", 0xFF000FFF#32, 0x30000000#32⟩
  | .deca _ _ => ⟨"deca", 0xFF00FFFF#32, 0x31000000#32⟩
  | .lsl _ _ => ⟨"lsl", 0xFF00FFFF#32, 0x32000000#32⟩
  | .lsr _ _ => ⟨"lsr", 0xFF00FFFF#32, 0x33000000#32⟩
  | .asr _ _ => ⟨"asr", 0xFF00FFFF#32, 0x34000000#32⟩
  | .asl _ _ => ⟨"asl", 0xFF00FFFF#32, 0x35000000#32⟩
  | .jfNeg _ => ⟨"jf.neg", 0xFFF00000#32, 0xA0000000#32⟩
  | .jfZero _ => ⟨"jf.zero", 0xFFF00000#32, 0xA0100000#32⟩
  | .jfCarry _ => ⟨"jf.carry", 0xFFF00000#32, 0xA0200000#32⟩
  | .jfNegzero _ => ⟨"jf.negzero", 0xFFF00000#32, 0xA0300000#32⟩
  | .jfTrue _ => ⟨"jf.true", 0xFFF00000#32, 0xA0400000#32⟩
  | .jfOverflow _ => ⟨"jf.overflow", 0xFFF00000#32, 0xA0500000#32⟩
  | .jtNeg _ => ⟨"jt.neg", 0xFFF00000#32, 0xA8000000#32⟩
  | .jtZero _ => ⟨"jt.zero", 0xFFF00000#32, 0xA8100000#32⟩
  | .jtCarry _ => ⟨"jt.carry", 0xFFF00000#32, 0xA8200000#32⟩
  | .jtNegzero _ => ⟨"jt.negzero", 0xFFF00000#32, 0xA8300000#32⟩
  | .jtTrue _ => ⟨"jt.true", 0xFFF00000#32, 0xA8400000#32⟩
  | .jtOverflow _ => ⟨"jt.overflow", 0xFFF00000#32, 0xA8500000#32⟩
  | .j _ => ⟨"j", 0xFF000000#32, 0xB0000000#32⟩
  | .jal _ => ⟨"jal", 0xFFFF0FFF#32, 0xB8000000#32⟩
  | .jr _ => ⟨"jr", 0xFFFF0FFF#32, 0xBC000000#32⟩
  | .nop => ⟨"nop", 0xFFFFFFFF#32, 0x00000000#32⟩

/-- One instruction of every row, in the order of the table. -/
def oneOfEach : List Instr :=
  [.load 0#4 0#4, .store 0#4 0#4, .loadlit 0#4 0#32, .lcl 0#4 0#8, .lch 0#4 0#8, .zeros 0#4, .and 0#4 0#4 0#4,
   .andnota 0#4 0#4 0#4, .passa 0#4 0#4, .xor 0#4 0#4 0#4, .or 0#4 0#4 0#4, .nor 0#4 0#4 0#4,
   .xnor 0#4 0#4 0#4, .passnota 0#4 0#4, .ornotb 0#4 0#4 0#4, .nand 0#4 0#4 0#4, .ones 0#4, .add 0#4 0#4 0#4,
   .addinc 0#4 0#4 0#4, .inca 0#4 0#4, .subdec 0#4 0#4 0#4, .sub 0#4 0#4 0#4, .deca 0#4 0#4, .lsl 0#4 0#4,
   .lsr 0#4 0#4, .asr 0#4 0#4, .asl 0#4 0#4, .jfNeg 0#32, .jfZero 0#32, .jfCarry 0#32, .jfNegzero 0#32,
   .jfTrue 0#32, .jfOverflow 0#32, .jtNeg 0#32, .jtZero 0#32, .jtCarry 0#32, .jtNegzero 0#32, .jtTrue 0#32,
   .jtOverflow 0#32, .j 0#32, .jal 0#4, .jr 0#4, .nop]

/-- The 43 rows of the table, in its order. -/
def opcodeTable : List TableRow := oneOfEach.map rowOf

/-- The word matches the row (R76). -/
def TableRow.isMatch (row : TableRow) (w : Word) : Bool := w &&& row.mask == row.pattern

end Sys2Proof
end

