-- ==== Sys2Proof/Certificates/Slice0/Obligations.lean ====
section
/-! DEFINITION. The statements for the provers, and the terms they are written in. -/

namespace Sys2Proof.Claims

open Sys2Proof.Machine

/-! ## Terms: what an instruction leaves behind -/

/-- Register 0 of a machine with `R0_ZERO`: it reads zero and ignores writes (10_state.md R22). -/
def isZeroRegister (s : State) (r : Reg) : Prop := s.r0Zero = true ∧ r = 0#4

/-- Register `c` holds `v`, every other register is as before, a zero register reads zero (10_state.md R22). -/
def registerWritten (s t : State) (c : Reg) (v : Word) : Prop :=
  ∀ r, (isZeroRegister s r → readReg t r = 0#32)
    ∧ (¬isZeroRegister s r → readReg t r = if r = c then v else readReg s r)

/-- Every register reads as before. -/
def registersKept (s t : State) : Prop := ∀ r, readReg t r = readReg s r

/-- Every byte of data memory reads as before. -/
def memoryKept (s t : State) : Prop := ∀ a, readByte t.dmem a = readByte s.dmem a

/-- Every byte of data memory outside word `n` reads as before. -/
def memoryKeptOutside (s t : State) (n : Nat) : Prop :=
  ∀ a, a < 4 * n ∨ 4 * n + 3 < a → readByte t.dmem a = readByte s.dmem a

/-- The program and the parameters of the run are as before (10_state.md R33, 92_eei_decisions.md D2, D6). -/
def programKept (s t : State) : Prop :=
  t.imem = s.imem ∧ t.imemWords = s.imemWords ∧ t.dmemWords = s.dmemWords ∧ t.r0Zero = s.r0Zero

/-- The instruction answers a next state, and it is such. -/
def completes (i : Instr) (s : State) (P : State → Prop) : Prop := ∃ t, exec i s = .next t ∧ P t

/-- The instruction wrote `v` to `c`, left RF as `f`, advanced the pc, and nothing else. -/
def wroteAndAdvanced (s : State) (c : Reg) (v : Word) (f : Flags) (t : State) : Prop :=
  registerWritten s t c v ∧ t.flags = f ∧ t.pc = s.pc + 1#32 ∧ memoryKept s t ∧ programKept s t ∧ t.draws = s.draws

/-- The instruction set the pc to `target`, and nothing else but, where `drew`, drew one free value. -/
def jumped (s : State) (target : Word) (drew : Bool) (t : State) : Prop :=
  registersKept s t ∧ t.flags = s.flags ∧ t.pc = target ∧ memoryKept s t ∧ programKept s t
    ∧ t.draws = s.draws + drew.toNat

/-- RF with neg and zero written from a result (42_alu.md R123). -/
def negZero (f : Flags) (r : Word) : Flags :=
  { neg := .bit r.msb, zero := .bit (decide (r.toNat = 0)), carry := f.carry, overflow := f.overflow }

/-- RF with all four flags written from an adder result (42_alu.md R123). -/
def allFour (sum : AdderResult) : Flags :=
  { neg := .bit sum.result.msb, zero := .bit (decide (sum.result.toNat = 0)), carry := .bit sum.carry,
    overflow := .bit sum.overflow }

/-! ## Terms: encodings as the rules print them -/

/-- A field placed with its lowest bit at bit `k`. -/
def place {n : Nat} (field : BitVec n) (k : Nat) : Word := field.setWidth 32 <<< k

/-- The word is `code` with the fields `c`, `a`, `b`, and the mask fixes every other bit (30_encoding.md R73, R76). -/
def encodedCAB (code : Word) (mk : Reg → Reg → Reg → Instr) : Prop :=
  (∀ w c a b, decode w = .ok (mk c a b) ↔ w = code ||| place c 20 ||| place a 16 ||| place b 12)
    ∧ ∀ w, w &&& 0xFF000FFF#32 = code ↔ ∃ c a b, decode w = .ok (mk c a b)

/-- The same with the fields `c` and `a`. -/
def encodedCA (code : Word) (mk : Reg → Reg → Instr) : Prop :=
  (∀ w c a, decode w = .ok (mk c a) ↔ w = code ||| place c 20 ||| place a 16)
    ∧ ∀ w, w &&& 0xFF00FFFF#32 = code ↔ ∃ c a, decode w = .ok (mk c a)

/-- The same with the field `c`. -/
def encodedC (code : Word) (mk : Reg → Instr) : Prop :=
  (∀ w c, decode w = .ok (mk c) ↔ w = code ||| place c 20)
    ∧ ∀ w, w &&& 0xFF0FFFFF#32 = code ↔ ∃ c, decode w = .ok (mk c)

/-- The same with the field `b` of jal and jr. -/
def encodedB (code : Word) (mk : Reg → Instr) : Prop :=
  (∀ w b, decode w = .ok (mk b) ↔ w = code ||| place b 12)
    ∧ ∀ w, w &&& 0xFFFF0FFF#32 = code ↔ ∃ b, decode w = .ok (mk b)

/-- The same with the fields `c` and `Const8` of lcl and lch. -/
def encodedHalf (code : Word) (mk : Reg → BitVec 8 → Instr) : Prop :=
  (∀ w c k, decode w = .ok (mk c k) ↔ w = code ||| place c 20 ||| place k 0)
    ∧ ∀ w, w &&& 0xFF0FFF00#32 = code ↔ ∃ c k, decode w = .ok (mk c k)

/-- The word of a jump is `code` with the low `bits` bits of Destino, and the mask fixes every other bit. -/
def encodedJump (code mask : Word) (bits : Nat) (mk : Word → Instr) : Prop :=
  (∀ w target, decode w = .ok (mk target) ↔ target.toNat < 2 ^ bits ∧ w = code ||| target)
    ∧ ∀ w, w &&& mask = code ↔ ∃ target, decode w = .ok (mk target)

/-! ## Terms: shapes of instructions -/

/-- A three-operand logic instruction: encoding, result, neg and zero, and the rest unchanged. -/
def logicRule (code : Word) (mk : Reg → Reg → Reg → Instr) (f : Word → Word → Word) : Prop :=
  encodedCAB code mk ∧ ∀ c a b s,
    completes (mk c a b) s (wroteAndAdvanced s c (f (readReg s a) (readReg s b))
      (negZero s.flags (f (readReg s a) (readReg s b))))

/-- A two-operand instruction that writes neg and zero. -/
def moveRule (code : Word) (mk : Reg → Reg → Instr) (f : Word → Word) : Prop :=
  encodedCA code mk ∧ ∀ c a s,
    completes (mk c a) s (wroteAndAdvanced s c (f (readReg s a)) (negZero s.flags (f (readReg s a))))

/-- A three-operand adder instruction. -/
def adderRule (code : Word) (mk : Reg → Reg → Reg → Instr) (f : Word → Word → AdderResult) : Prop :=
  encodedCAB code mk ∧ ∀ c a b s,
    completes (mk c a b) s (wroteAndAdvanced s c (f (readReg s a) (readReg s b)).result
      (allFour (f (readReg s a) (readReg s b))))

/-- A two-operand adder instruction. -/
def stepRule (code : Word) (mk : Reg → Reg → Instr) (f : Word → AdderResult) : Prop :=
  encodedCA code mk ∧ ∀ c a s,
    completes (mk c a) s (wroteAndAdvanced s c (f (readReg s a)).result (allFour (f (readReg s a))))

/-- An adder instruction as integer arithmetic: the exact result `exact` narrowed to 32 bits, carry as given, overflow
exactly when `exact` is no signed 32-bit number (42_alu.md R125). -/
def exactly (s : State) (c : Reg) (exact : Int) (carry : Bool) (t : State) : Prop :=
  registerWritten s t c (BitVec.ofInt 32 exact) ∧ t.flags.carry = .bit carry
    ∧ t.flags.overflow = .bit (decide (exact < -2147483648 ∨ 2147483647 < exact))

/-! ## Terms: flags and conditions -/

/-- The bit a read of a flag yields: the stored bit, or the free value of the next draw (10_state.md R37). -/
def flagRead (s : State) (name : FlagName) : Bool :=
  match flagNamed s.flags name with
  | .bit b => b
  | .unspecified => Config.freeFlag s.draws name

/-- `holds(cond)` on the flags as read (43_control_transfer.md R130). -/
def conditionHolds (s : State) : Cond → Bool
  | .neg => flagRead s .neg
  | .zero => flagRead s .zero
  | .carry => flagRead s .carry
  | .negzero => flagRead s .neg || flagRead s .zero
  | .true => !flagRead s .zero
  | .overflow => flagRead s .overflow

/-- The pc is at the target once the instructions of the delay slots, of which there are none, have been executed. -/
def reachesAfterDelaySlots (target : Word) (t : State) : Prop :=
  ∃ u : State, Sys2Proof.core.run Config.branchDelaySlots t = .next u ∧ u.pc = target

/-- Whether a flag holds no value the spec promises. -/
def flagOpen (s : State) (name : FlagName) : Bool := flagNamed s.flags name == .unspecified

/-- A `jf`: taken when `cond` does not hold; `drew` says whether a flag it reads was unspecified (43_control_transfer.md
R131). -/
def jumpFalseRule (code : Word) (mk : Word → Instr) (cond drew : State → Bool) : Prop :=
  encodedJump code 0xFFF00000#32 20 mk ∧ ∀ target s,
    completes (mk target) s (jumped s (if cond s then s.pc + 1#32 else target) (drew s))

/-- A `jt`: taken when `cond` holds (R132). -/
def jumpTrueRule (code : Word) (mk : Word → Instr) (cond drew : State → Bool) : Prop :=
  encodedJump code 0xFFF00000#32 20 mk ∧ ∀ target s,
    completes (mk target) s (jumped s (if cond s then target else s.pc + 1#32) (drew s))

/-! ## Terms: the instruction set as a whole -/

/-- The registers an instruction reads through its fields (10_state.md R23). -/
def registersRead : Instr → List Reg
  | .load _ a => [a]
  | .store a b => [a, b]
  | .loadlit _ _ => []
  | .lcl c _ => [c]
  | .lch c _ => [c]
  | .zeros _ => []
  | .and _ a b => [a, b]
  | .andnota _ a b => [a, b]
  | .passa _ a => [a]
  | .xor _ a b => [a, b]
  | .or _ a b => [a, b]
  | .nor _ a b => [a, b]
  | .xnor _ a b => [a, b]
  | .passnota _ a => [a]
  | .ornotb _ a b => [a, b]
  | .nand _ a b => [a, b]
  | .ones _ => []
  | .add _ a b => [a, b]
  | .addinc _ a b => [a, b]
  | .inca _ a => [a]
  | .subdec _ a b => [a, b]
  | .sub _ a b => [a, b]
  | .deca _ a => [a]
  | .lsl _ a => [a]
  | .lsr _ a => [a]
  | .asr _ a => [a]
  | .asl _ a => [a]
  | .jfNeg _ => []
  | .jfZero _ => []
  | .jfCarry _ => []
  | .jfNegzero _ => []
  | .jfTrue _ => []
  | .jfOverflow _ => []
  | .jtNeg _ => []
  | .jtZero _ => []
  | .jtCarry _ => []
  | .jtNegzero _ => []
  | .jtTrue _ => []
  | .jtOverflow _ => []
  | .j _ => []
  | .jal b => [b]
  | .jr b => [b]
  | .nop => []

/-- The register an instruction writes: the field `c`, or r15 for jal (R23). -/
def registerOfResult : Instr → Option Reg
  | .load c _ => some c
  | .store _ _ => none
  | .loadlit c _ => some c
  | .lcl c _ => some c
  | .lch c _ => some c
  | .zeros c => some c
  | .and c _ _ => some c
  | .andnota c _ _ => some c
  | .passa c _ => some c
  | .xor c _ _ => some c
  | .or c _ _ => some c
  | .nor c _ _ => some c
  | .xnor c _ _ => some c
  | .passnota c _ => some c
  | .ornotb c _ _ => some c
  | .nand c _ _ => some c
  | .ones c => some c
  | .add c _ _ => some c
  | .addinc c _ _ => some c
  | .inca c _ => some c
  | .subdec c _ _ => some c
  | .sub c _ _ => some c
  | .deca c _ => some c
  | .lsl c _ => some c
  | .lsr c _ => some c
  | .asr c _ => some c
  | .asl c _ => some c
  | .jfNeg _ => none
  | .jfZero _ => none
  | .jfCarry _ => none
  | .jfNegzero _ => none
  | .jfTrue _ => none
  | .jfOverflow _ => none
  | .jtNeg _ => none
  | .jtZero _ => none
  | .jtCarry _ => none
  | .jtNegzero _ => none
  | .jtTrue _ => none
  | .jtOverflow _ => none
  | .j _ => none
  | .jal _ => some 15#4
  | .jr _ => none
  | .nop => none

/-- The flags an instruction writes: the table of 10_state.md R28. -/
def flagsWritten : Instr → List FlagName
  | .load _ _ => []
  | .store _ _ => []
  | .loadlit _ _ => []
  | .lcl _ _ => []
  | .lch _ _ => []
  | .zeros _ => [.zero]
  | .and _ _ _ => [.neg, .zero]
  | .andnota _ _ _ => [.neg, .zero]
  | .passa _ _ => [.neg, .zero]
  | .xor _ _ _ => [.neg, .zero]
  | .or _ _ _ => [.neg, .zero]
  | .nor _ _ _ => [.neg, .zero]
  | .xnor _ _ _ => [.neg, .zero]
  | .passnota _ _ => [.neg, .zero]
  | .ornotb _ _ _ => [.neg, .zero]
  | .nand _ _ _ => [.neg, .zero]
  | .ones _ => []
  | .add _ _ _ => [.neg, .zero, .carry, .overflow]
  | .addinc _ _ _ => [.neg, .zero, .carry, .overflow]
  | .inca _ _ => [.neg, .zero, .carry, .overflow]
  | .subdec _ _ _ => [.neg, .zero, .carry, .overflow]
  | .sub _ _ _ => [.neg, .zero, .carry, .overflow]
  | .deca _ _ => [.neg, .zero, .carry, .overflow]
  | .lsl _ _ => [.neg, .zero, .carry]
  | .lsr _ _ => [.neg, .zero]
  | .asr _ _ => [.neg, .zero]
  | .asl _ _ => [.neg, .zero, .carry, .overflow]
  | .jfNeg _ => []
  | .jfZero _ => []
  | .jfCarry _ => []
  | .jfNegzero _ => []
  | .jfTrue _ => []
  | .jfOverflow _ => []
  | .jtNeg _ => []
  | .jtZero _ => []
  | .jtCarry _ => []
  | .jtNegzero _ => []
  | .jtTrue _ => []
  | .jtOverflow _ => []
  | .j _ => []
  | .jal _ => []
  | .jr _ => []
  | .nop => []

/-- Whether an instruction is asl, the one that leaves its flags unspecified (42_alu.md R121). -/
def isAsl (i : Instr) : Bool := (rowOf i).mnemonic == "asl"

/-- Whether an instruction is a jf or a jt, the only readers of flags (10_state.md R29). -/
def readsFlags (i : Instr) : Bool := (rowOf i).pattern.extractLsb' 28 4 == 0b1010#4

/-- Whether an instruction is a control transfer: format J (30_encoding.md R67). -/
def isControlTransfer (i : Instr) : Bool := (rowOf i).pattern.extractLsb' 29 3 == 0b101#3

/-- Whether an instruction is store. -/
def isStore (i : Instr) : Bool := (rowOf i).mnemonic == "store"

/-- The bits of a word that its format and operation code say must be zero (30_encoding.md R63 to R70, R76). -/
def mustBeZeroBits (w : Word) : Word :=
  let grp := (w >>> 29).toNat
  let op := (w >>> 24).toNat % 32
  if grp = 1 then
    if op ∈ [0, 11] then 0x000FFFFF#32
    else if op ∈ [3, 8, 14, 17, 18, 19, 20, 21] then 0x0000FFFF#32
    else 0x00000FFF#32
  else if grp = 2 then
    if op = 20 then 0x0000FFFF#32 else 0x00F00FFF#32
  else if grp = 3 then 0x1F0F0000#32
  else if grp = 4 then 0x0F0FFF00#32
  else if grp = 5 then
    if op / 8 = 3 then 0x03FF0FFF#32 else 0x07000000#32
  else 0#32

/-- The words that 30_encoding.md R77 lists as illegal. -/
def isIllegalWord (w : Word) : Prop :=
  let grp := (w >>> 29).toNat
  let op := (w >>> 24).toNat % 32
  let cond := (w >>> 20).toNat % 16
  grp = 6 ∨ grp = 7 ∨ (grp = 0 ∧ w ≠ 0#32) ∨ (grp = 1 ∧ 22 ≤ op) ∨ (grp = 2 ∧ op ≠ 20 ∧ op ≠ 22)
    ∨ (grp = 5 ∧ op / 8 ≤ 1 ∧ 6 ≤ cond) ∨ w &&& mustBeZeroBits w ≠ 0#32

/-- The pair `(a, v)` is listed and no later pair names `a`. -/
def lastNamed {α β : Type} (pairs : List (α × β)) (a : α) (v : β) : Prop :=
  ∃ before after, pairs = before ++ (a, v) :: after ∧ a ∉ after.map Prod.fst

/-- Two outcomes of one instruction that agree on everything but, perhaps, what register `r` holds; they agree on `r` too
where `written` says the instruction wrote it. -/
def sameBut (r : Reg) (written : Bool) (o o' : Result) : Prop :=
  (∃ t t', o = .next t ∧ o' = .next t' ∧ t'.pc = t.pc ∧ t'.flags = t.flags ∧ memoryKept t t' ∧ programKept t t'
      ∧ t'.draws = t.draws ∧ (∀ q, q ≠ r → readReg t' q = readReg t q)
      ∧ (written = true → readReg t' r = readReg t r))
    ∨ ∃ f, o = .fault f ∧ o' = .fault f

end Sys2Proof.Claims

open Sys2Proof Sys2Proof.Machine Sys2Proof.Claims Sys2Proof.Safety

/-! ## Decoding and encoding -/

/-- Words written out from 30_encoding.md R73, R74 and the examples of the instructions' rules decode to what they stand
for, one of each format. The layout is the spec's own decision D11 (log 8). -/
def Obligations.SampleWordsDecode : Prop :=
  decode 0x54450000#32 = .ok (.load 4#4 5#4) ∧ decode 0x56056000#32 = .ok (.store 5#4 6#4)
    ∧ decode 0x6010FFFF#32 = .ok (.loadlit 1#4 0xFFFFFFFF#32) ∧ decode 0x80200034#32 = .ok (.lcl 2#4 0x34#8)
    ∧ decode 0x90200012#32 = .ok (.lch 2#4 0x12#8) ∧ decode 0x22312000#32 = .ok (.andnota 3#4 1#4 2#4)
    ∧ decode 0x34310000#32 = .ok (.asr 3#4 1#4) ∧ decode 0xA0100002#32 = .ok (.jfZero 2#32)
    ∧ decode 0xA8212345#32 = .ok (.jtCarry 0x12345#32) ∧ decode 0xB0FFFFFF#32 = .ok (.j 0x00FFFFFF#32)
    ∧ decode 0xB8007000#32 = .ok (.jal 7#4) ∧ decode 0xBC00F000#32 = .ok (.jr 15#4) ∧ decode 0#32 = .ok .nop

/-- Every well-formed instruction decodes from its encoding, with every operand at every value its field admits
(30_encoding.md R62 to R76; the layout is the spec's decision D11, log 8). -/
def Obligations.DecodeOfEncode : Prop := ∀ i : Instr, i.wf = true → decode (encode i) = .ok i

/-- Every legal word is the encoding of the well-formed instruction it decodes to: no bit of a word is dropped
(30_encoding.md R76, R79; decisions D11, D12, log 8). -/
def Obligations.EncodeOfDecode : Prop := ∀ w i, decode w = .ok i → i.wf = true ∧ encode i = w

/-- A word is the instruction of a row of the opcode table if and only if `word & mask == match`, no two rows match one
word, and the table has 43 rows (30_encoding.md R76, R82; decisions D12, D34, log 8). -/
def Obligations.DecodeAgreesWithOpcodeTable : Prop :=
  opcodeTable.length = 43
    ∧ (∀ w, ∀ row ∈ opcodeTable, row.isMatch w = true ↔ ∃ i, decode w = .ok i ∧ rowOf i = row)
    ∧ ∀ w, ∀ row ∈ opcodeTable, ∀ row' ∈ opcodeTable, row.isMatch w = true → row'.isMatch w = true → row = row'

/-- A word is refused exactly when it is one of those 30_encoding.md R77 lists (decision D12, log 8). -/
def Obligations.IllegalWordsAreTheListedOnes : Prop :=
  ∀ w, (∃ e, decode w = .error e) ↔ isIllegalWord w

/-! ## A step -/

/-- Where the four bytes at the pc are listed, the pc is inside the instruction memory and the bytes decode to an
instruction, a step is that instruction, and adds nothing around it (30_encoding.md R60, R79; 20_memory.md R41). -/
def Obligations.StepRunsTheDecodedInstruction : Prop :=
  ∀ (s : State) (b0 b1 b2 b3 : Byte) (i : Instr), s.pc.toNat < s.imemWords →
    readByte s.imem (4 * s.pc.toNat) = some b0 → readByte s.imem (4 * s.pc.toNat + 1) = some b1 →
    readByte s.imem (4 * s.pc.toNat + 2) = some b2 → readByte s.imem (4 * s.pc.toNat + 3) = some b3 →
    decodeBytes [b0, b1, b2, b3] = .ok i → step s = exec i s

/-- The three faults of a step, each exactly when the spec says, in the order fetch, decode, execute: a fetch beyond
`IMEM_WORDS` (60_exceptions.md R151) or of a word the image does not cover (70_reset_and_hazards.md R172); otherwise a
fetched word that is no instruction; otherwise a load or store whose base register holds an address that is not
implemented (R151; the order is 60_exceptions.md R155). The faults are the spec's decisions D7, D12 and D29 (log 17).
That a word of which only some bytes are listed counts as not covered is the model's choice (log 20). -/
def Obligations.StepFaultsAsListed : Prop :=
  ∀ s : State,
    (∀ f, step s = .fault f ↔
      (s.imemWords ≤ s.pc.toNat ∨ readWord s.imem s.pc.toNat = none) ∧ f = .fetchOutOfRange s.pc
        ∨ s.pc.toNat < s.imemWords ∧ ∃ w, readWord s.imem s.pc.toNat = some w
          ∧ (isIllegalWord w ∧ f = .illegalEncoding s.pc w
            ∨ ∃ a, ((∃ c, decode w = .ok (.load c a)) ∨ ∃ b, decode w = .ok (.store a b))
              ∧ s.dmemWords ≤ (readReg s a).toNat ∧ f = .dataOutOfRange (readReg s a)))
      ∧ ∀ r, step s ≠ .refused r

/-- Only load and store can fault, and only on an address that is not implemented; every other instruction completes in
every state (42_alu.md R122 "none can fault", 60_exceptions.md R151; decisions D7, D29, log 17). -/
def Obligations.OnlyLoadAndStoreFault : Prop :=
  ∀ i s, (∃ t, exec i s = .next t)
    ∨ (∃ c a, i = .load c a ∧ s.dmemWords ≤ (readReg s a).toNat ∧ exec i s = .fault (.dataOutOfRange (readReg s a)))
    ∨ ∃ a b, i = .store a b ∧ s.dmemWords ≤ (readReg s a).toNat ∧ exec i s = .fault (.dataOutOfRange (readReg s a))

/-! ## load and store -/

/-- load: encoding, the word read to `c`, a free value where a byte of the word was never written, the fault outside the
implemented words, and the rest unchanged (40_memory_access.md R90, decision D38; the free value is the model's choice
among the two treatments of 10_state.md R37, log 3). -/
def Obligations.LoadReadsTheAddressedWord : Prop :=
  encodedCA 0x54000000#32 .load ∧ ∀ c a s,
    ((readReg s a).toNat < s.dmemWords →
        (∀ v, readWord s.dmem (readReg s a).toNat = some v →
          completes (.load c a) s (wroteAndAdvanced s c v s.flags))
        ∧ (readWord s.dmem (readReg s a).toNat = none →
          completes (.load c a) s fun t =>
            registerWritten s t c (readWordOr s.dmem (readReg s a).toNat (Config.freeWord s.draws))
              ∧ t.flags = s.flags ∧ t.pc = s.pc + 1#32 ∧ memoryKept s t ∧ programKept s t
              ∧ t.draws = s.draws + 1))
      ∧ (s.dmemWords ≤ (readReg s a).toNat → exec (.load c a) s = .fault (.dataOutOfRange (readReg s a)))

/-- store: encoding, the word of `b` stored at the address in `a`, all 32 bits, every byte outside it unchanged, the fault
outside the implemented words, and the rest unchanged (40_memory_access.md R91, decision D38). -/
def Obligations.StoreWritesTheAddressedWord : Prop :=
  ((∀ w a b, decode w = .ok (.store a b) ↔ w = 0x56000000#32 ||| place a 16 ||| place b 12)
      ∧ ∀ w, w &&& 0xFFF00FFF#32 = 0x56000000#32 ↔ ∃ a b, decode w = .ok (.store a b))
    ∧ ∀ a b s,
      ((readReg s a).toNat < s.dmemWords →
        completes (.store a b) s fun t =>
          readWord t.dmem (readReg s a).toNat = some (readReg s b)
            ∧ memoryKeptOutside s t (readReg s a).toNat ∧ registersKept s t ∧ t.flags = s.flags
            ∧ t.pc = s.pc + 1#32 ∧ programKept s t ∧ t.draws = s.draws)
      ∧ (s.dmemWords ≤ (readReg s a).toNat → exec (.store a b) s = .fault (.dataOutOfRange (readReg s a)))

/-- load and store take the whole 32-bit content of register `a` as the word address, with no offset or index added, and
leave the base register as it was unless load's `c` names it (40_memory_access.md R92). What load does with a zero
register as its destination is said by `LoadReadsTheAddressedWord`. -/
def Obligations.AddressIsTheWholeBaseRegister : Prop :=
  (∀ c a s v t, (readReg s a).toNat < s.dmemWords → readWord s.dmem (readReg s a).toNat = some v →
      exec (.load c a) s = .next t →
      (¬isZeroRegister s c → readReg t c = v) ∧ (c ≠ a → readReg t a = readReg s a))
    ∧ ∀ a b s t, exec (.store a b) s = .next t →
      readWord t.dmem (readReg s a).toNat = some (readReg s b) ∧ readReg t a = readReg s a

/-- A word written to data memory is what the next read of its address gives, the read changes nothing, and every
other address reads as it would have before the write; beyond `DMEM_WORDS` both fault (20_memory.md R43, R44; the
fault is R47, decision D7, log 17). That a read of a word never written answers some word, where 10_state.md R37
allows a fault as well, is the model's choice (log 3); such a read changes no memory, register, flag or pc, and counts
one draw of the model's own (log 4, log 24). -/
def Obligations.MemoryReadsTheLatestWrite : Prop :=
  ∀ (s : State) (addr v : Word),
    (addr.toNat < s.dmemWords → ∃ t, memWrite s addr v = .ok t ∧ memRead t addr = .ok (v, t)
      ∧ (∀ other, other ≠ addr → readWord t.dmem other.toNat = readWord s.dmem other.toNat)
      ∧ registersKept s t ∧ t.flags = s.flags ∧ t.pc = s.pc ∧ programKept s t ∧ t.draws = s.draws)
    ∧ (addr.toNat < s.dmemWords → ∀ w, readWord s.dmem addr.toNat = some w → memRead s addr = .ok (w, s))
    ∧ (addr.toNat < s.dmemWords → readWord s.dmem addr.toNat = none → ∃ w t, memRead s addr = .ok (w, t)
      ∧ registersKept s t ∧ t.flags = s.flags ∧ t.pc = s.pc ∧ t.dmem = s.dmem ∧ programKept s t)
    ∧ (s.dmemWords ≤ addr.toNat →
        memRead s addr = .error (.dataOutOfRange addr) ∧ memWrite s addr v = .error (.dataOutOfRange addr))

/-- A load from the address of the latest store gives the stored word, with any instructions between them that are neither
store nor load: here with one instruction between (20_memory.md R50, decision D31). -/
def Obligations.LoadAfterStoreReturnsTheStoredWord : Prop :=
  ∀ (a b c d : Reg) (i : Instr) (s t u : State), exec (.store a b) s = .next t → exec i t = .next u →
    isStore i = false → readReg u d = readReg s a →
    completes (.load c d) u (wroteAndAdvanced u c (readReg s b) u.flags)

/-- In the byte view the most significant byte of a stored word stands at the lowest offset (20_memory.md R40, R41; the
byte view is the spec's decision D32, log 15). -/
def Obligations.StoredWordIsBigEndian : Prop :=
  ∀ a b s t, exec (.store a b) s = .next t →
    (∀ k, k < 4 → ∃ byte, readByte t.dmem (4 * (readReg s a).toNat + k) = some byte
      ∧ byte.toNat = (readReg s b).toNat / 2 ^ (24 - 8 * k) % 256)

/-! ## Constants -/

/-- loadlit: the register receives the sign-extended constant, and nothing else changes (41_constants.md R95; 16 bits and
sign extension are the spec's decision D14, log 8). -/
def Obligations.LoadlitLoadsTheSignedConstant : Prop :=
  (∀ w c imm, decode w = .ok (.loadlit c imm) ↔
      ∃ k : BitVec 16, imm.toInt = k.toInt ∧ w = 0x60000000#32 ||| place c 20 ||| place k 0)
    ∧ (∀ w, w &&& 0xFF0F0000#32 = 0x60000000#32 ↔ ∃ c imm, decode w = .ok (.loadlit c imm))
    ∧ ∀ c imm s, completes (.loadlit c imm) s (wroteAndAdvanced s c imm s.flags)

/-- lcl and lch: the constant into bits 7:0 or 15:8, the other of the two bytes kept, bits 31:16 cleared, and nothing else
changes (41_constants.md R96, R97; that the upper half is cleared is the spec's decision D15, log 14). -/
def Obligations.HalfConstantsReplaceOneByte : Prop :=
  encodedHalf 0x80000000#32 .lcl ∧ encodedHalf 0x90000000#32 .lch
    ∧ (∀ c k s, completes (.lcl c k) s
        (wroteAndAdvanced s c (0#16 ++ (readReg s c).extractLsb' 8 8 ++ k) s.flags))
    ∧ ∀ c k s, completes (.lch c k) s
        (wroteAndAdvanced s c (0#16 ++ k ++ (readReg s c).extractLsb' 0 8) s.flags)

/-- lcl and lch, in either order, leave the 16-bit constant in the register whatever it held before (41_constants.md R98,
which the spec marks as derived from R95 to R97; decision D15, log 14). -/
def Obligations.LclAndLchBuildASixteenBitConstant : Prop :=
  ∀ c lo hi s, ¬isZeroRegister s c →
    (∃ t, exec (.lcl c lo) s = .next t ∧ completes (.lch c hi) t fun u => readReg u c = 0#16 ++ hi ++ lo)
    ∧ ∃ t, exec (.lch c hi) s = .next t ∧ completes (.lcl c lo) t fun u => readReg u c = 0#16 ++ hi ++ lo

/-! ## ALU -/

/-- The eight three-operand logic instructions: encoding, bitwise result, neg and zero, and the rest unchanged (42_alu.md
R101, R102, R104 to R107, R109, R110). -/
def Obligations.LogicInstructionsAreBitwise : Prop :=
  logicRule 0x21000000#32 .and (fun x y => x &&& y) ∧ logicRule 0x22000000#32 .andnota (fun x y => ~~~x &&& y)
    ∧ logicRule 0x24000000#32 .xor (fun x y => x ^^^ y) ∧ logicRule 0x25000000#32 .or (fun x y => x ||| y)
    ∧ logicRule 0x26000000#32 .nor (fun x y => ~~~(x ||| y))
    ∧ logicRule 0x27000000#32 .xnor (fun x y => ~~~(x ^^^ y))
    ∧ logicRule 0x29000000#32 .ornotb (fun x y => x ||| ~~~y)
    ∧ logicRule 0x2A000000#32 .nand (fun x y => ~~~(x &&& y))

/-- passa and passnota: encoding, the value or its complement, neg and zero, and the rest unchanged (42_alu.md R103,
R108). -/
def Obligations.PassInstructionsCopyOrComplement : Prop :=
  moveRule 0x23000000#32 .passa (fun x => x) ∧ moveRule 0x28000000#32 .passnota (fun x => ~~~x)

/-- zeros writes 0 and only the zero flag, to 1; ones writes the value one and no flag (42_alu.md R100, R111; both
readings are the spec's decision D25, log 13). -/
def Obligations.ZerosAndOnesWriteConstants : Prop :=
  encodedC 0x20000000#32 .zeros ∧ encodedC 0x2B000000#32 .ones
    ∧ (∀ c s, completes (.zeros c) s (wroteAndAdvanced s c 0#32
        { neg := s.flags.neg, zero := .bit true, carry := s.flags.carry, overflow := s.flags.overflow }))
    ∧ ∀ c s, completes (.ones c) s (wroteAndAdvanced s c 1#32 s.flags)

/-- add is AddWithCarry(A, B, 0) and writes all four flags (42_alu.md R112; that add writes them is the spec's decision
D20, log 13). -/
def Obligations.AddIsTheAdder : Prop := adderRule 0x2C000000#32 .add (fun x y => addWithCarry x y false)

/-- addinc, subdec, sub, inca and deca are the adder with the operands and carry input of 42_alu.md R113 to R117. -/
def Obligations.OtherAdderInstructionsAreTheAdder : Prop :=
  adderRule 0x2D000000#32 .addinc (fun x y => addWithCarry x y true)
    ∧ stepRule 0x2E000000#32 .inca (fun x => addWithCarry x 0#32 true)
    ∧ adderRule 0x2F000000#32 .subdec (fun x y => addWithCarry x (~~~y) false)
    ∧ adderRule 0x30000000#32 .sub (fun x y => addWithCarry x (~~~y) true)
    ∧ stepRule 0x31000000#32 .deca (fun x => addWithCarry x 0xFFFFFFFF#32 false)

/-- The six adder instructions as integer arithmetic: the result modulo 2^32, carry by the unsigned comparison of R125,
overflow exactly when the signed result is out of range, and never a trap (42_alu.md R125; the carry convention of the
subtractions and the formula for overflow are the spec's decision D22, log 13). -/
def Obligations.AdderInstructionsAreExactArithmetic : Prop :=
  ∀ c a b s,
    completes (.add c a b) s (exactly s c ((readReg s a).toInt + (readReg s b).toInt)
        (decide (2 ^ 32 ≤ (readReg s a).toNat + (readReg s b).toNat)))
      ∧ completes (.addinc c a b) s (exactly s c ((readReg s a).toInt + (readReg s b).toInt + 1)
        (decide (2 ^ 32 ≤ (readReg s a).toNat + (readReg s b).toNat + 1)))
      ∧ completes (.inca c a) s (exactly s c ((readReg s a).toInt + 1)
        (decide (2 ^ 32 ≤ (readReg s a).toNat + 1)))
      ∧ completes (.subdec c a b) s (exactly s c ((readReg s a).toInt - (readReg s b).toInt - 1)
        (decide ((readReg s b).toNat < (readReg s a).toNat)))
      ∧ completes (.sub c a b) s (exactly s c ((readReg s a).toInt - (readReg s b).toInt)
        (decide ((readReg s b).toNat ≤ (readReg s a).toNat)))
      ∧ completes (.deca c a) s (exactly s c ((readReg s a).toInt - 1) (decide (readReg s a ≠ 0#32)))

/-- A 64-bit sum from two adder passes, the high pass taking the low pass's carry: addinc where it is set, add where
it is clear (42_alu.md R113 "the high half of a two-word addition after a low half that set the carry"; decision D22,
log 13). -/
def Obligations.CarryChainsTwoWordAddition : Prop :=
  ∀ (xl xh yl yh : Word),
    let lo := addWithCarry xl yl false
    let hi := addWithCarry xh yh lo.carry
    hi.result ++ lo.result = ((xh ++ xl : BitVec 64) + (yh ++ yl : BitVec 64))
      ∧ hi.carry = decide (2 ^ 64 ≤ (xh ++ xl : BitVec 64).toNat + (yh ++ yl : BitVec 64).toNat)

/-- lsl: one position to the left, carry the bit shifted out, overflow kept (42_alu.md R118; the amount and the carry are
the spec's decisions D18, D22, log 13). -/
def Obligations.LogicalShiftLeftDoubles : Prop :=
  encodedCA 0x32000000#32 .lsl ∧ ∀ c a s, ∃ r : Word,
    r.toNat = 2 * (readReg s a).toNat % 2 ^ 32
      ∧ completes (.lsl c a) s (wroteAndAdvanced s c r
        { neg := .bit r.msb, zero := .bit (decide (r.toNat = 0)),
          carry := .bit (decide (2 ^ 31 ≤ (readReg s a).toNat)), overflow := s.flags.overflow })

/-- lsr halves the unsigned value and asr the signed one, rounding down; neg and zero from the result, carry and overflow
kept (42_alu.md R119, R120; the amount is the spec's decision D18, log 13). -/
def Obligations.RightShiftsHalve : Prop :=
  encodedCA 0x33000000#32 .lsr ∧ encodedCA 0x34000000#32 .asr
    ∧ (∀ c a s, ∃ r : Word, r.toNat = (readReg s a).toNat / 2
        ∧ completes (.lsr c a) s (wroteAndAdvanced s c r
          { neg := .bit false, zero := .bit (decide (r.toNat = 0)), carry := s.flags.carry,
            overflow := s.flags.overflow }))
    ∧ ∀ c a s, ∃ r : Word, r.toInt = (readReg s a).toInt / 2
        ∧ completes (.asr c a) s (wroteAndAdvanced s c r (negZero s.flags r))

/-- asl gives the bits of lsl and leaves all four flags unspecified (42_alu.md R121; the result and the open flags are the
spec's decisions D18, D19; that an unspecified flag is a mark every read of which draws is the model's choice, log 5). -/
def Obligations.ArithmeticShiftLeftLeavesFlagsOpen : Prop :=
  encodedCA 0x35000000#32 .asl ∧ ∀ c a s, ∃ r : Word,
    r.toNat = 2 * (readReg s a).toNat % 2 ^ 32
      ∧ completes (.asl c a) s (wroteAndAdvanced s c r
        { neg := .unspecified, zero := .unspecified, carry := .unspecified, overflow := .unspecified })

/-- Where `R0_ZERO` holds, sub to r0 is a compare: no register changes, jt.zero is then taken exactly when the
operands are equal, jt.carry exactly when the first is not below the second unsigned, and neg differs from overflow
exactly when the first is below the second signed (44_nop_halt.md R143, which the spec marks as derived; decisions D2,
D22, log 9, log 13). -/
def Obligations.SubtractToRegisterZeroCompares : Prop :=
  ∀ a b target s, s.r0Zero = true → ∃ t, exec (.sub 0#4 a b) s = .next t ∧ registersKept s t
    ∧ (completes (.jtZero target) t fun u =>
        u.pc = if readReg s a = readReg s b then target else s.pc + 2#32)
    ∧ (completes (.jtCarry target) t fun u =>
        u.pc = if (readReg s b).toNat ≤ (readReg s a).toNat then target else s.pc + 2#32)
    ∧ ∃ n v, t.flags.neg = .bit n ∧ t.flags.overflow = .bit v
      ∧ ((n ≠ v) ↔ (readReg s a).toInt < (readReg s b).toInt)

/-! ## Control transfer, nop, HALT -/

/-- The six jf: encoding, taken when the condition of 43_control_transfer.md R130 is false, `pc + 1` otherwise, and
nothing else; an unspecified flag reads as a free value (R131; conditions and encoding are the spec's decisions D13,
D16, D37, log 8, log 12; the free value is log 5). -/
def Obligations.JumpFalseTestsTheStoredFlags : Prop :=
  jumpFalseRule 0xA0000000#32 .jfNeg (fun s => flagRead s .neg) (fun s => flagOpen s .neg)
    ∧ jumpFalseRule 0xA0100000#32 .jfZero (fun s => flagRead s .zero) (fun s => flagOpen s .zero)
    ∧ jumpFalseRule 0xA0200000#32 .jfCarry (fun s => flagRead s .carry) (fun s => flagOpen s .carry)
    ∧ jumpFalseRule 0xA0300000#32 .jfNegzero (fun s => flagRead s .neg || flagRead s .zero)
        (fun s => flagOpen s .neg || flagOpen s .zero)
    ∧ jumpFalseRule 0xA0400000#32 .jfTrue (fun s => !flagRead s .zero) (fun s => flagOpen s .zero)
    ∧ jumpFalseRule 0xA0500000#32 .jfOverflow (fun s => flagRead s .overflow) (fun s => flagOpen s .overflow)

/-- The six jt: as jf with the sense reversed (43_control_transfer.md R132; decisions D13, D16, D37, log 8, log 12; the
free value is log 5). -/
def Obligations.JumpTrueTestsTheStoredFlags : Prop :=
  jumpTrueRule 0xA8000000#32 .jtNeg (fun s => flagRead s .neg) (fun s => flagOpen s .neg)
    ∧ jumpTrueRule 0xA8100000#32 .jtZero (fun s => flagRead s .zero) (fun s => flagOpen s .zero)
    ∧ jumpTrueRule 0xA8200000#32 .jtCarry (fun s => flagRead s .carry) (fun s => flagOpen s .carry)
    ∧ jumpTrueRule 0xA8300000#32 .jtNegzero (fun s => flagRead s .neg || flagRead s .zero)
        (fun s => flagOpen s .neg || flagOpen s .zero)
    ∧ jumpTrueRule 0xA8400000#32 .jtTrue (fun s => !flagRead s .zero) (fun s => flagOpen s .zero)
    ∧ jumpTrueRule 0xA8500000#32 .jtOverflow (fun s => flagRead s .overflow) (fun s => flagOpen s .overflow)

/-- After asl every conditional jump still completes, at its target or at the next instruction (42_alu.md R121,
43_control_transfer.md R131; decision D19; the draw is the model's choice, log 5). -/
def Obligations.JumpsCompleteAfterArithmeticShiftLeft : Prop :=
  ∀ c a s t, exec (.asl c a) s = .next t → ∀ cond target,
    (completes (jumpFalse cond target) t fun u => (u.pc = target ∨ u.pc = s.pc + 2#32) ∧ u.draws = s.draws + 1)
      ∧ completes (jumpTrue cond target) t fun u => (u.pc = target ∨ u.pc = s.pc + 2#32) ∧ u.draws = s.draws + 1

/-- j sets the pc to its 24-bit absolute target from any address, and nothing else (43_control_transfer.md R133). -/
def Obligations.JumpGoesToItsTarget : Prop :=
  encodedJump 0xB0000000#32 0xFF000000#32 24 .j ∧ ∀ target s, completes (.j target) s (jumped s target false)

/-- jr sets the pc to the whole content of register `b`, and nothing else (43_control_transfer.md R135). -/
def Obligations.JumpRegisterGoesToTheRegister : Prop :=
  encodedB 0xBC000000#32 .jr ∧ ∀ b s, completes (.jr b) s (jumped s (readReg s b) false)

/-- jal reads its target before it writes `pc + 1` to r15 (43_control_transfer.md R134; link register and link value are
the spec's decision D17, log 11). -/
def Obligations.JumpAndLinkSavesTheReturnAddress : Prop :=
  encodedB 0xB8000000#32 .jal ∧ ∀ b s, completes (.jal b) s fun t =>
    registerWritten s t 15#4 (s.pc + 1#32) ∧ t.pc = readReg s b ∧ t.flags = s.flags ∧ memoryKept s t
      ∧ programKept s t ∧ t.draws = s.draws

/-- A callee that leaves r15 alone returns with `jr r15` to the instruction after the jal (43_control_transfer.md R137,
which the spec marks as derived from R134 and R135; decision D17, log 11). -/
def Obligations.ReturnGoesBehindTheCall : Prop :=
  ∀ (b : Reg) (s t u : State), exec (.jal b) s = .next t → readReg u 15#4 = readReg t 15#4 →
    completes (.jr 15#4) u fun v => v.pc = s.pc + 1#32

/-- nop is the word 0x00000000 and advances the pc, and nothing else (44_nop_halt.md R140; the encoding is the spec's
decision D26, log 8). -/
def Obligations.NopOnlyAdvances : Prop :=
  (∀ w, decode w = .ok .nop ↔ w = 0#32) ∧ ∀ s, completes .nop s (jumped s (s.pc + 1#32) false)

/-- HALT: `j n` at instruction address `n` leaves the machine state as it was, for ever (44_nop_halt.md R141). -/
def Obligations.HaltNeverChangesTheState : Prop :=
  ∀ (s : State), s.pc.toNat < 2 ^ 24 → fetch s = .ok (0xB0000000#32 ||| s.pc) → ∀ k, Sys2Proof.core.run k s = .next s

/-- A state is halted exactly when the word at its pc is `j` to that pc; a run that has reached a halted state stays
there, so its end state is unique, and a faulting state is never halted (44_nop_halt.md R142; decision D28). -/
def Obligations.RunsEndInOneHaltedState : Prop :=
  (∀ s : State, halted s = true ↔ ∃ w, fetch s = .ok w ∧ decode w = .ok (.j s.pc))
    ∧ (∀ s t u : State, endsIn s t → endsIn s u → t = u)
    ∧ ∀ (s : State) (f : Fault), step s = .fault f → halted s = false

/-! ## Whole-machine rules -/

/-- Where `R0_ZERO` holds, register 0 reads zero in every state, no step writes its cell, and an instruction whose
result goes to r0 leaves every register as it was; where it does not hold, r0 is written and read as any register; no
instruction changes which of the two it is (10_state.md R22; that it holds of this core is the spec's decision D2, log
9). -/
def Obligations.RegisterZeroIsHardwired : Prop :=
  (∀ s : State, s.r0Zero = true → readReg s 0#4 = 0#32)
    ∧ (∀ i s t, s.r0Zero = true → exec i s = .next t → t.regs[0] = s.regs[0])
    ∧ (∀ i s t, s.r0Zero = true → registerOfResult i = some 0#4 → exec i s = .next t → t.regs = s.regs)
    ∧ (∀ (s : State) v, s.r0Zero = false → readReg (writeReg s 0#4 v) 0#4 = v)
    ∧ ∀ i s t, exec i s = .next t → t.r0Zero = s.r0Zero

/-- No instruction writes a register but the one its field names (r15 for jal), and no instruction's effect depends on a
register that is not named by a field it reads: changing such a register before the instruction changes nothing it does
(10_state.md R23). -/
def Obligations.RegistersAreReachedThroughFieldsOnly : Prop :=
  (∀ i s t r, exec i s = .next t → registerOfResult i ≠ some r → readReg t r = readReg s r)
    ∧ ∀ i s r v, r ∉ registersRead i →
      sameBut r (registerOfResult i == some r) (exec i s) (exec i (writeReg s r v))

/-- Each instruction writes the flags of its row of the table of 10_state.md R28, to specified bits but for asl, and keeps
the others (decisions D19, D20, D21, D23, log 5, log 13). -/
def Obligations.FlagsWrittenAreTheListedOnes : Prop :=
  ∀ i s t, exec i s = .next t → ∀ name,
    (name ∉ flagsWritten i → flagNamed t.flags name = flagNamed s.flags name)
      ∧ (name ∈ flagsWritten i → isAsl i = false → ∃ b, flagNamed t.flags name = .bit b)
      ∧ (isAsl i = true → flagNamed t.flags name = .unspecified)

/-- Only jf and jt read flags: for every other instruction the registers, memory, pc and faults are the same whatever RF
holds, and no instruction but an ALU one changes RF (10_state.md R29, which also says by which conditions
they read them: `JumpFalseTestsTheStoredFlags` and `JumpTrueTestsTheStoredFlags`). -/
def Obligations.OnlyConditionalJumpsReadFlags : Prop :=
  (∀ i s f, readsFlags i = false →
      (∃ t t', exec i s = .next t ∧ exec i (setFlags s f) = .next t' ∧ t'.regs = t.regs ∧ t'.pc = t.pc
          ∧ t'.dmem = t.dmem ∧ programKept t t' ∧ t'.draws = t.draws
          ∧ ∀ name, name ∈ flagsWritten i → flagNamed t'.flags name = flagNamed t.flags name)
        ∨ ∃ r, exec i s = .fault r ∧ exec i (setFlags s f) = .fault r)
    ∧ ∀ i s t, exec i s = .next t → t.flags ≠ s.flags → (rowOf i).pattern.extractLsb' 29 3 = 0b001#3

/-- Only store changes data memory (10_state.md R32; that it is a space of its own is the spec's decision D5, log 10). -/
def Obligations.OnlyStoreChangesDataMemory : Prop :=
  ∀ i s t, isStore i = false → exec i s = .next t → t.dmem = s.dmem

/-- Every instruction that is no control transfer ends with `(pc + 1) mod 2^32` (10_state.md R25; decision D8, log 10). -/
def Obligations.PcAdvancesByOneWord : Prop :=
  ∀ i s t, isControlTransfer i = false → exec i s = .next t → t.pc.toNat = (s.pc.toNat + 1) % 2 ^ 32

/-- No step changes the program or the sizes of the memories, so no store changes what a later fetch returns
(10_state.md R33, 20_memory.md R53; the separate memories are the spec's decision D5, log 10). -/
def Obligations.NoRunChangesTheProgram : Prop :=
  ∀ k (s t : State), Sys2Proof.core.run k s = .next t →
    programKept s t ∧ ∀ target, fetch (setPc t target) = fetch (setPc s target)

/-- What every step keeps: where `R0_ZERO` holds r0's cell is zero, both memories are in canonical form, no byte
beyond DMEM_WORDS is listed, the sizes are in the range of D6 (10_state.md R22, 20_memory.md R46; decisions D2, D6,
log 6, log 9, log 15). -/
def Obligations.EveryStepKeepsTheInvariant : Prop := ∀ s t : State, Inv s → step s = .next t → Inv t

/-- The reset state has the invariant, for every size of the memories in the range of D6 (10_state.md R36; decisions D2,
D6). -/
def Obligations.ResetHasTheInvariant : Prop :=
  Inv State.reset
    ∧ ∀ im dm r0Zero, 1 ≤ im → im ≤ 2 ^ 32 → 1 ≤ dm → dm ≤ 2 ^ 32 → Inv (State.resetWith im dm r0Zero)

/-- After reset the pc is RESET_PC = 0 and, where `R0_ZERO` holds, r0 reads 0 (10_state.md R36; the values are the
spec's decisions D9 and D2, log 23, log 9). Two clauses are the model's choice: neither memory lists a word, because
the program image that R36 puts into the instruction memory is loaded from outside (log 7), and because a data word
that is listed nowhere is the model's form of an unspecified one (log 3). Nothing is said of r1 to r15 and the flags,
whose values are the model's choice too (log 1, log 2). -/
def Obligations.ResetStartsAtAddressZero : Prop :=
  ∀ im dm r0Zero, (State.resetWith im dm r0Zero).pc = 0#32
    ∧ (r0Zero = true → readReg (State.resetWith im dm r0Zero) 0#4 = 0#32)
    ∧ ∀ n, readWord (State.resetWith im dm r0Zero).dmem n = none ∧ readWord (State.resetWith im dm r0Zero).imem n = none

/-- The start of a run (70_reset_and_hazards.md R172; decisions D6, D9, D36, log 7). A run starts exactly where the
sizes are in the range of D6, the image has at most `IMEM_WORDS` words and the data words named are implemented ones
(10_state.md R32). Its start state has pc 0, the parameters and the image from address 0 upward; a fetch from an
address the image does not cover faults as FetchOutOfRange; every data word, register and flag named holds the value
named last for it (that the last one counts is the model's choice, log 25), but that a zero register reads zero; a
data word not named is listed nowhere (the model's form of an unspecified one, log 3); registers and flags not named
are as after reset. -/
def Obligations.StartOfRunHoldsTheImage : Prop :=
  ∀ r : RunStart,
    ((∃ s, startOfRun r = some s) ↔
        (1 ≤ r.imemWords ∧ r.imemWords ≤ 2 ^ 32) ∧ (1 ≤ r.dmemWords ∧ r.dmemWords ≤ 2 ^ 32)
          ∧ r.image.length ≤ r.imemWords ∧ ∀ word ∈ r.data, word.1.toNat < r.dmemWords)
      ∧ ∀ s, startOfRun r = some s →
        (s.pc = 0#32 ∧ s.imemWords = r.imemWords ∧ s.dmemWords = r.dmemWords ∧ s.r0Zero = r.r0Zero)
          ∧ (∀ (n : Word) (h : n.toNat < r.image.length), fetch (setPc s n) = .ok r.image[n.toNat])
          ∧ (∀ n : Word, r.image.length ≤ n.toNat → fetch (setPc s n) = .error (.fetchOutOfRange n))
          ∧ (∀ addr v, lastNamed r.data addr v → readWord s.dmem addr.toNat = some v)
          ∧ (∀ n, (∀ word ∈ r.data, word.1.toNat ≠ n) → readWord s.dmem n = none)
          ∧ (∀ c v, lastNamed r.registers c v → ¬isZeroRegister s c → readReg s c = v)
          ∧ (∀ c, c ∉ r.registers.map Prod.fst →
              readReg s c = readReg (State.resetWith r.imemWords r.dmemWords r.r0Zero) c)
          ∧ (∀ c, isZeroRegister s c → readReg s c = 0#32)
          ∧ (∀ name b, lastNamed r.flags name b → flagNamed s.flags name = .bit b)
          ∧ ∀ name, name ∉ r.flags.map Prod.fst → flagNamed s.flags name
              = flagNamed (State.resetWith r.imemWords r.dmemWords r.r0Zero).flags name

/-- Every start state of a run has the invariant that every step keeps (70_reset_and_hazards.md R172, 10_state.md R22,
20_memory.md R46; decisions D2, D6, D36, log 6, log 7, log 9, log 15). -/
def Obligations.EveryStartOfRunHasTheInvariant : Prop :=
  ∀ (r : RunStart) (s : State), startOfRun r = some s → Inv s

/-- Every taken control transfer completes and has its target as the pc after the instructions of
`BRANCH_DELAY_SLOTS`, of which there are none (43_control_transfer.md R136; decision D27, log 12). -/
def Obligations.TakenJumpsReachTheirTargetAfterTheDelaySlots : Prop :=
  ∀ s : State,
    (∀ target, completes (.j target) s (reachesAfterDelaySlots target))
      ∧ (∀ b, completes (.jal b) s (reachesAfterDelaySlots (readReg s b)))
      ∧ (∀ b, completes (.jr b) s (reachesAfterDelaySlots (readReg s b)))
      ∧ (∀ cond target, conditionHolds s cond = false →
          completes (jumpFalse cond target) s (reachesAfterDelaySlots target))
      ∧ ∀ cond target, conditionHolds s cond = true →
          completes (jumpTrue cond target) s (reachesAfterDelaySlots target)
end

