-- ==== Sys2Proof/Laws/Decode.lean ====
section
/-! SUPPORT. The fields of an encoded word, format by format, and a word rebuilt from its fields: what encoding and decoding
rest on (30_encoding.md R62 to R72). -/

namespace Sys2Proof.Laws

/-! ## The extensions and ranges of the immediates, at the spec's values of `LOADLIT_EXT` and `DEST_MODE` -/

theorem signExtend16_eq (k : BitVec 16) : signExtend16 k = k.signExtend 32 := rfl

theorem zeroExtend20_eq (d : BitVec 20) : zeroExtend20 d = d.setWidth 32 := rfl

theorem zeroExtend24_eq (d : BitVec 24) : zeroExtend24 d = d.setWidth 32 := rfl

theorem constFits_iff {imm : Word} : constFits imm = true ↔ -32768 ≤ imm.toInt ∧ imm.toInt ≤ 32767 := by
  simp only [constFits, Config.loadlitBits, Bool.and_eq_true, decide_eq_true_eq]
  omega

theorem destino20Fits_iff {target : Word} : destino20Fits target = true ↔ target.toNat < 1048576 := by
  simp [destino20Fits]

theorem destino24Fits_iff {target : Word} : destino24Fits target = true ↔ target.toNat < 16777216 := by
  simp [destino24Fits]

/-! ## The fields of each format's words -/

theorem fields_encodeA (op : BitVec 5) (c a b : Reg) :
    fieldGrp (encodeA op c a b) = 1#3 ∧ fieldOp (encodeA op c a b) = op ∧ fieldC (encodeA op c a b) = c
      ∧ fieldA (encodeA op c a b) = a ∧ fieldB (encodeA op c a b) = b ∧ fieldLow (encodeA op c a b) = 0#12 := by
  refine ⟨?_, ?_, ?_, ?_, ?_, ?_⟩ <;>
  · refine BitVec.eq_of_getLsbD_eq fun i hi => ?_
    simp only [fieldGrp, fieldOp, fieldC, fieldA, fieldB, fieldLow, encodeA, BitVec.getLsbD_extractLsb',
      BitVec.getLsbD_append]
    interval_cases i <;> simp

theorem fields_encodeM (op : BitVec 5) (c a b : Reg) :
    fieldGrp (encodeM op c a b) = 2#3 ∧ fieldOp (encodeM op c a b) = op ∧ fieldC (encodeM op c a b) = c
      ∧ fieldA (encodeM op c a b) = a ∧ fieldB (encodeM op c a b) = b ∧ fieldLow (encodeM op c a b) = 0#12 := by
  refine ⟨?_, ?_, ?_, ?_, ?_, ?_⟩ <;>
  · refine BitVec.eq_of_getLsbD_eq fun i hi => ?_
    simp only [fieldGrp, fieldOp, fieldC, fieldA, fieldB, fieldLow, encodeM, BitVec.getLsbD_extractLsb',
      BitVec.getLsbD_append]
    interval_cases i <;> simp

theorem fields_encodeKI (c : Reg) (k : BitVec 16) :
    fieldGrp (encodeKI c k) = 3#3 ∧ fieldOp (encodeKI c k) = 0#5 ∧ fieldC (encodeKI c k) = c
      ∧ fieldA (encodeKI c k) = 0#4 ∧ fieldConst (encodeKI c k) = k := by
  refine ⟨?_, ?_, ?_, ?_, ?_⟩ <;>
  · refine BitVec.eq_of_getLsbD_eq fun i hi => ?_
    simp only [fieldGrp, fieldOp, fieldC, fieldA, fieldConst, encodeKI, BitVec.getLsbD_extractLsb',
      BitVec.getLsbD_append]
    interval_cases i <;> simp

theorem fields_encodeKII (r : BitVec 1) (c : Reg) (k : BitVec 8) :
    fieldGrp (encodeKII r c k) = 4#3 ∧ fieldHalfR (encodeKII r c k) = r ∧ fieldC (encodeKII r c k) = c
      ∧ fieldHalfHigh (encodeKII r c k) = 0#4 ∧ fieldHalfMid (encodeKII r c k) = 0#12
      ∧ fieldConst8 (encodeKII r c k) = k := by
  refine ⟨?_, ?_, ?_, ?_, ?_, ?_⟩ <;>
  · refine BitVec.eq_of_getLsbD_eq fun i hi => ?_
    simp only [fieldGrp, fieldC, fieldConst8, fieldHalfR, fieldHalfHigh, fieldHalfMid, encodeKII,
      BitVec.getLsbD_extractLsb', BitVec.getLsbD_append]
    interval_cases i <;> simp

theorem fields_encodeJI (jop : BitVec 2) (cond : Cond) (t : Word) :
    fieldGrp (encodeJI jop cond t) = 5#3 ∧ fieldJop (encodeJI jop cond t) = jop
      ∧ fieldCond (encodeJI jop cond t) = encodeCond cond ∧ fieldJumpHigh (encodeJI jop cond t) = 0#3
      ∧ fieldDestino20 (encodeJI jop cond t) = t.setWidth 20 := by
  refine ⟨?_, ?_, ?_, ?_, ?_⟩ <;>
  · refine BitVec.eq_of_getLsbD_eq fun i hi => ?_
    simp only [fieldGrp, fieldJop, fieldCond, fieldJumpHigh, fieldDestino20, encodeJI, BitVec.getLsbD_extractLsb',
      BitVec.getLsbD_append]
    interval_cases i <;> simp

theorem fields_encodeJII (t : Word) :
    fieldGrp (encodeJII t) = 5#3 ∧ fieldJop (encodeJII t) = 2#2 ∧ fieldJumpHigh (encodeJII t) = 0#3
      ∧ fieldDestino24 (encodeJII t) = t.setWidth 24 := by
  refine ⟨?_, ?_, ?_, ?_⟩ <;>
  · refine BitVec.eq_of_getLsbD_eq fun i hi => ?_
    simp only [fieldGrp, fieldJop, fieldJumpHigh, fieldDestino24, encodeJII, BitVec.getLsbD_extractLsb',
      BitVec.getLsbD_append]
    interval_cases i <;> simp

theorem fields_encodeJR (r : BitVec 1) (b : Reg) :
    fieldGrp (encodeJR r b) = 5#3 ∧ fieldJop (encodeJR r b) = 3#2 ∧ fieldJumpR (encodeJR r b) = r
      ∧ fieldJumpMid (encodeJR r b) = 0#10 ∧ fieldLow (encodeJR r b) = 0#12 ∧ fieldB (encodeJR r b) = b := by
  refine ⟨?_, ?_, ?_, ?_, ?_, ?_⟩ <;>
  · refine BitVec.eq_of_getLsbD_eq fun i hi => ?_
    simp only [fieldGrp, fieldJop, fieldLow, fieldB, fieldJumpR, fieldJumpMid, encodeJR,
      BitVec.getLsbD_extractLsb', BitVec.getLsbD_append]
    interval_cases i <;> simp

/-! ## A word from its fields -/

theorem word_of_register_fields (w : Word) :
    fieldGrp w ++ fieldOp w ++ fieldC w ++ fieldA w ++ fieldB w ++ fieldLow w = w := by
  refine BitVec.eq_of_getLsbD_eq fun i hi => ?_
  simp only [fieldGrp, fieldOp, fieldC, fieldA, fieldB, fieldLow, BitVec.getLsbD_extractLsb', BitVec.getLsbD_append]
  interval_cases i <;> simp

theorem word_of_constant_fields (w : Word) :
    fieldGrp w ++ fieldOp w ++ fieldC w ++ fieldA w ++ fieldConst w = w := by
  refine BitVec.eq_of_getLsbD_eq fun i hi => ?_
  simp only [fieldGrp, fieldOp, fieldC, fieldA, fieldConst, BitVec.getLsbD_extractLsb', BitVec.getLsbD_append]
  interval_cases i <;> simp

theorem word_of_half_fields (w : Word) :
    fieldGrp w ++ fieldHalfR w ++ fieldHalfHigh w ++ fieldC w ++ fieldHalfMid w ++ fieldConst8 w = w := by
  refine BitVec.eq_of_getLsbD_eq fun i hi => ?_
  simp only [fieldGrp, fieldC, fieldConst8, fieldHalfR, fieldHalfHigh, fieldHalfMid, BitVec.getLsbD_extractLsb',
    BitVec.getLsbD_append]
  interval_cases i <;> simp

theorem word_of_jump20_fields (w : Word) :
    fieldGrp w ++ fieldJop w ++ fieldJumpHigh w ++ fieldCond w ++ fieldDestino20 w = w := by
  refine BitVec.eq_of_getLsbD_eq fun i hi => ?_
  simp only [fieldGrp, fieldJop, fieldCond, fieldJumpHigh, fieldDestino20, BitVec.getLsbD_extractLsb',
    BitVec.getLsbD_append]
  interval_cases i <;> simp

theorem word_of_jump24_fields (w : Word) :
    fieldGrp w ++ fieldJop w ++ fieldJumpHigh w ++ fieldDestino24 w = w := by
  refine BitVec.eq_of_getLsbD_eq fun i hi => ?_
  simp only [fieldGrp, fieldJop, fieldJumpHigh, fieldDestino24, BitVec.getLsbD_extractLsb', BitVec.getLsbD_append]
  interval_cases i <;> simp

theorem word_of_register_jump_fields (w : Word) :
    fieldGrp w ++ fieldJop w ++ fieldJumpR w ++ fieldJumpMid w ++ fieldB w ++ fieldLow w = w := by
  refine BitVec.eq_of_getLsbD_eq fun i hi => ?_
  simp only [fieldGrp, fieldJop, fieldJumpR, fieldJumpMid, fieldB, fieldLow, BitVec.getLsbD_extractLsb',
    BitVec.getLsbD_append]
  interval_cases i <;> simp

/-! ## Condition codes -/

/-- Everything `decodeCond` can answer: the condition with this code, and nothing beyond the six codes (R75). -/
theorem decodeCond_eq_some {code : BitVec 4} {cond : Cond} : decodeCond code = some cond ↔ encodeCond cond = code := by
  revert code; cases cond <;> decide

@[simp] theorem decodeCond_encodeCond (cond : Cond) : decodeCond (encodeCond cond) = some cond :=
  decodeCond_eq_some.2 rfl

end Sys2Proof.Laws
end

