-- ==== Sys2Proof/Laws/Memory.lean ====
section
/-! SUPPORT. The laws of memory: read after write, every other place as before, the canonical form kept. -/

namespace Sys2Proof.Machine

/-! ## Bytes of a word -/

/-- The key of a byte, as a number: `ADDR_UNIT` is one word of four bytes. -/
theorem byteKey_eq (n offset : Nat) : byteKey n offset = 4 * n + offset := rfl

/-- The four bytes of a word, joined in order, are the word (20_memory.md R41). -/
theorem joinBytes_extract (w : Word) :
    joinBytes (w.extractLsb' 24 8) (w.extractLsb' 16 8) (w.extractLsb' 8 8) (w.extractLsb' 0 8) = w := by
  unfold joinBytes
  ext i hi
  simp only [BitVec.getElem_append, BitVec.getElem_extractLsb']
  rcases Nat.lt_or_ge i 8 with h | h
  · simp [h, BitVec.getLsbD_eq_getElem hi]
  rcases Nat.lt_or_ge i 16 with h2 | h2
  · have e : 8 + (i - 8) = i := by omega
    simp [show ¬ i < 8 by omega, show i - 8 < 8 by omega, e, BitVec.getLsbD_eq_getElem hi]
  rcases Nat.lt_or_ge i 24 with h3 | h3
  · have e : 16 + (i - 8 - 8) = i := by omega
    simp [show ¬ i < 8 by omega, show ¬ i - 8 < 8 by omega, show i - 8 - 8 < 8 by omega, e,
      BitVec.getLsbD_eq_getElem hi]
  · have e : 24 + (i - 8 - 8 - 8) = i := by omega
    simp [show ¬ i < 8 by omega, show ¬ i - 8 < 8 by omega, show ¬ i - 8 - 8 < 8 by omega, e,
      BitVec.getLsbD_eq_getElem hi]

/-! ## One byte -/

@[simp] theorem readByte_nil (a : Nat) : readByte [] a = none := rfl

/-- Everything a byte write does to a byte read. -/
theorem readByte_writeByte (m : Memory) (a b : Nat) (v : Byte) :
    readByte (writeByte m a v) b = if b = a then some v else readByte m b := by
  induction m with
  | nil => simp only [writeByte, readByte, eq_comm (a := a)]
  | cons cell rest ih =>
    obtain ⟨k, w⟩ := cell
    by_cases hlt : a < k
    · by_cases h : b = a
      · simp [writeByte, readByte, hlt, h]
      · have h' : a ≠ b := fun e => h e.symm
        simp [writeByte, readByte, hlt, h, h']
    · by_cases hk : k = a
      · by_cases h : b = a
        · simp [writeByte, readByte, hk, h]
        · have h' : a ≠ b := fun e => h e.symm
          simp [writeByte, readByte, hk, h, h']
      · by_cases h : b = a
        · subst h; simp [writeByte, readByte, hlt, hk, ih]
        · by_cases hb : k = b
          · subst hb; simp [writeByte, readByte, hlt, hk]
          · simp [writeByte, readByte, hlt, hk, hb, h, ih]

theorem readByte_writeByte_same (m : Memory) (a : Nat) (v : Byte) : readByte (writeByte m a v) a = some v := by
  simp [readByte_writeByte]

theorem readByte_writeByte_other (m : Memory) {a b : Nat} (v : Byte) (h : b ≠ a) :
    readByte (writeByte m a v) b = readByte m b := by
  simp [readByte_writeByte, h]

/-- A write lists no entry but its own and the old ones. -/
theorem mem_writeByte {m : Memory} {a : Nat} {v : Byte} {cell : Host.Cell} (h : cell ∈ writeByte m a v) :
    cell = (a, v) ∨ cell ∈ m := by
  induction m with
  | nil => simpa [writeByte] using h
  | cons head rest ih =>
    obtain ⟨k, w⟩ := head
    simp only [writeByte] at h
    split at h
    · simpa using h
    · split at h
      · rcases List.mem_cons.mp h with h | h
        · exact .inl h
        · exact .inr (List.mem_cons_of_mem _ h)
      · rcases List.mem_cons.mp h with h | h
        · exact .inr (h ▸ List.mem_cons_self)
        · exact (ih h).imp id (List.mem_cons_of_mem _)

/-- A byte write keeps the canonical form. -/
theorem writeByte_wf {m : Memory} (a : Nat) (v : Byte) (h : Memory.wf m) : Memory.wf (writeByte m a v) := by
  induction m with
  | nil => simp [writeByte, Memory.wf]
  | cons head rest ih =>
    obtain ⟨k, w⟩ := head
    obtain ⟨hhead, hrest⟩ := List.pairwise_cons.mp h
    simp only [writeByte]
    split
    · rename_i hlt
      refine List.pairwise_cons.mpr ⟨fun cell hcell => ?_, h⟩
      rcases List.mem_cons.mp hcell with e | hcell
      · subst e; exact hlt
      · exact Nat.lt_trans hlt (hhead cell hcell)
    · split
      · rename_i hk
        subst hk
        exact List.pairwise_cons.mpr ⟨hhead, hrest⟩
      · refine List.pairwise_cons.mpr ⟨fun cell hcell => ?_, ih hrest⟩
        rcases mem_writeByte hcell with e | hcell
        · subst e; simp only; omega
        · exact hhead cell hcell

/-! ## One word -/

/-- Byte `offset` of a word that has been written. -/
theorem readByte_writeWord_in (m : Memory) (n : Nat) (v : Word) :
    readByte (writeWord m n v) (byteKey n 0) = some (v.extractLsb' 24 8)
      ∧ readByte (writeWord m n v) (byteKey n 1) = some (v.extractLsb' 16 8)
      ∧ readByte (writeWord m n v) (byteKey n 2) = some (v.extractLsb' 8 8)
      ∧ readByte (writeWord m n v) (byteKey n 3) = some (v.extractLsb' 0 8) := by
  simp [writeWord, readByte_writeByte, byteKey_eq]

/-- A word write leaves every byte outside the word as it was (20_memory.md R44). -/
theorem readByte_writeWord_out (m : Memory) {n a : Nat} (v : Word) (h : a < 4 * n ∨ 4 * n + 3 < a) :
    readByte (writeWord m n v) a = readByte m a := by
  have h0 : a ≠ byteKey n 0 := by simp only [byteKey_eq]; omega
  have h1 : a ≠ byteKey n 1 := by simp only [byteKey_eq]; omega
  have h2 : a ≠ byteKey n 2 := by simp only [byteKey_eq]; omega
  have h3 : a ≠ byteKey n 3 := by simp only [byteKey_eq]; omega
  simp [writeWord, readByte_writeByte, h0, h1, h2, h3]

theorem wordListed_writeWord_same (m : Memory) (n : Nat) (v : Word) : wordListed (writeWord m n v) n = true := by
  obtain ⟨h0, h1, h2, h3⟩ := readByte_writeWord_in m n v
  simp [wordListed, h0, h1, h2, h3]

theorem readWordOr_writeWord_same (m : Memory) (n : Nat) (v free : Word) :
    readWordOr (writeWord m n v) n free = v := by
  obtain ⟨h0, h1, h2, h3⟩ := readByte_writeWord_in m n v
  simp [readWordOr, h0, h1, h2, h3, joinBytes_extract]

theorem readWord_writeWord_same (m : Memory) (n : Nat) (v : Word) : readWord (writeWord m n v) n = some v := by
  simp [readWord, wordListed_writeWord_same, readWordOr_writeWord_same]

theorem readByte_writeWord_word (m : Memory) {n k : Nat} (v : Word) (h : k ≠ n) (offset : Nat) (ho : offset < 4) :
    readByte (writeWord m n v) (byteKey k offset) = readByte m (byteKey k offset) :=
  readByte_writeWord_out m v (by simp only [byteKey_eq]; omega)

theorem wordListed_writeWord_other (m : Memory) {n k : Nat} (v : Word) (h : k ≠ n) :
    wordListed (writeWord m n v) k = wordListed m k := by
  simp [wordListed, readByte_writeWord_word m v h]

theorem readWordOr_writeWord_other (m : Memory) {n k : Nat} (v free : Word) (h : k ≠ n) :
    readWordOr (writeWord m n v) k free = readWordOr m k free := by
  simp [readWordOr, readByte_writeWord_word m v h]

theorem readWord_writeWord_other (m : Memory) {n k : Nat} (v : Word) (h : k ≠ n) :
    readWord (writeWord m n v) k = readWord m k := by
  simp [readWord, wordListed_writeWord_other m v h, readWordOr_writeWord_other m v 0#32 h]

/-- Where every byte is listed, the free word does not matter. -/
theorem readWordOr_listed {m : Memory} {n : Nat} (h : wordListed m n = true) (f g : Word) :
    readWordOr m n f = readWordOr m n g := by
  simp only [wordListed, Bool.and_eq_true, Option.isSome_iff_exists] at h
  obtain ⟨⟨⟨⟨b0, h0⟩, b1, h1⟩, b2, h2⟩, b3, h3⟩ := h
  simp [readWordOr, h0, h1, h2, h3]

/-- What a listed word reads as. -/
theorem readWord_eq_some {m : Memory} {n : Nat} {w : Word} (h : readWord m n = some w) (free : Word) :
    wordListed m n = true ∧ readWordOr m n free = w := by
  unfold readWord at h
  split at h
  · rename_i hl
    exact ⟨hl, (readWordOr_listed hl free 0#32).trans (Option.some.inj h)⟩
  · cases h

/-- A word write keeps the canonical form. -/
theorem writeWord_wf {m : Memory} (n : Nat) (v : Word) (h : Memory.wf m) : Memory.wf (writeWord m n v) :=
  writeByte_wf _ _ (writeByte_wf _ _ (writeByte_wf _ _ (writeByte_wf _ _ h)))

/-- A word write lists no key but the word's four and the old ones. -/
theorem mem_writeWord {m : Memory} {n : Nat} {v : Word} {cell : Host.Cell} (h : cell ∈ writeWord m n v) :
    (4 * n ≤ cell.1 ∧ cell.1 ≤ 4 * n + 3) ∨ cell ∈ m := by
  rcases mem_writeByte h with h | h
  · subst h; simp [byteKey_eq]
  rcases mem_writeByte h with h | h
  · subst h; simp [byteKey_eq]
  rcases mem_writeByte h with h | h
  · subst h; simp [byteKey_eq]
  rcases mem_writeByte h with h | h
  · subst h; simp [byteKey_eq]
  · exact .inr h

/-! ## Many words -/

theorem writeWords_wf {m : Memory} (n : Nat) (ws : List Word) (h : Memory.wf m) : Memory.wf (writeWords m n ws) := by
  induction ws generalizing m n with
  | nil => exact h
  | cons w ws ih => exact ih (n + 1) (writeWord_wf n w h)

/-- What a word reads as after words have been placed from address `n` upward. -/
theorem readWord_writeWords (m : Memory) (n k : Nat) (ws : List Word) :
    readWord (writeWords m n ws) k = if h : n ≤ k ∧ k - n < ws.length then some ws[k - n] else readWord m k := by
  induction ws generalizing m n with
  | nil => simp [writeWords]
  | cons w ws ih =>
    rw [writeWords, ih]
    by_cases hk : k = n
    · subst hk; simp [readWord_writeWord_same]
    rw [readWord_writeWord_other _ _ hk]
    by_cases h : n + 1 ≤ k ∧ k - (n + 1) < ws.length
    · rw [dif_pos h, dif_pos (by simp; omega)]
      obtain ⟨d, rfl⟩ := Nat.exists_eq_add_of_le h.1
      simp [show n + 1 + d - n = d + 1 by omega]
    · rw [dif_neg h, dif_neg (by simp; omega)]

/-- Pairs that do not name a word leave it as it was. -/
theorem readWord_writePairs_other (m : Memory) (data : List (Word × Word)) (k : Nat)
    (h : ∀ word ∈ data, word.1.toNat ≠ k) : readWord (writePairs m data) k = readWord m k := by
  induction data generalizing m with
  | nil => rfl
  | cons p rest ih =>
    rw [writePairs, ih _ fun word hw => h word (List.mem_cons_of_mem _ hw)]
    exact readWord_writeWord_other _ _ fun e => h p List.mem_cons_self e.symm

/-- Pairs placed one list after the other. -/
theorem writePairs_append (m : Memory) (before after : List (Word × Word)) :
    writePairs m (before ++ after) = writePairs (writePairs m before) after := by
  induction before generalizing m with
  | nil => rfl
  | cons p rest ih => exact ih _

/-- Pairs list no key but those of the words they name and the old ones. -/
theorem mem_writePairs {m : Memory} {data : List (Word × Word)} {cell : Host.Cell} (h : cell ∈ writePairs m data) :
    (∃ word ∈ data, 4 * word.1.toNat ≤ cell.1 ∧ cell.1 ≤ 4 * word.1.toNat + 3) ∨ cell ∈ m := by
  induction data generalizing m with
  | nil => exact .inr h
  | cons p rest ih =>
    rcases ih h with ⟨word, hw, hc⟩ | h
    · exact .inl ⟨word, List.mem_cons_of_mem _ hw, hc⟩
    · exact (mem_writeWord h).imp (fun hc => ⟨p, List.mem_cons_self, hc⟩) id

theorem writePairs_wf {m : Memory} (data : List (Word × Word)) (h : Memory.wf m) : Memory.wf (writePairs m data) := by
  induction data generalizing m with
  | nil => exact h
  | cons p rest ih => exact ih (writeWord_wf p.1.toNat p.2 h)

end Sys2Proof.Machine
end

