-- ==== Sys2Proof/Laws/State.lean ====
section
/-! SUPPORT. One lemma per field per update of the state, so that no proof unfolds a record update. -/

namespace Sys2Proof.Machine

/-! ## setPc -/

@[simp] theorem setPc_regs (s : State) (t : Word) : (setPc s t).regs = s.regs := rfl
@[simp] theorem setPc_pc (s : State) (t : Word) : (setPc s t).pc = t := rfl
@[simp] theorem setPc_flags (s : State) (t : Word) : (setPc s t).flags = s.flags := rfl
@[simp] theorem setPc_dmem (s : State) (t : Word) : (setPc s t).dmem = s.dmem := rfl
@[simp] theorem setPc_imem (s : State) (t : Word) : (setPc s t).imem = s.imem := rfl
@[simp] theorem setPc_imemWords (s : State) (t : Word) : (setPc s t).imemWords = s.imemWords := rfl
@[simp] theorem setPc_dmemWords (s : State) (t : Word) : (setPc s t).dmemWords = s.dmemWords := rfl
@[simp] theorem setPc_draws (s : State) (t : Word) : (setPc s t).draws = s.draws := rfl
@[simp] theorem setPc_r0Zero (s : State) (t : Word) : (setPc s t).r0Zero = s.r0Zero := rfl

/-! ## setFlags -/

@[simp] theorem setFlags_regs (s : State) (f : Flags) : (setFlags s f).regs = s.regs := rfl
@[simp] theorem setFlags_pc (s : State) (f : Flags) : (setFlags s f).pc = s.pc := rfl
@[simp] theorem setFlags_flags (s : State) (f : Flags) : (setFlags s f).flags = f := rfl
@[simp] theorem setFlags_dmem (s : State) (f : Flags) : (setFlags s f).dmem = s.dmem := rfl
@[simp] theorem setFlags_imem (s : State) (f : Flags) : (setFlags s f).imem = s.imem := rfl
@[simp] theorem setFlags_imemWords (s : State) (f : Flags) : (setFlags s f).imemWords = s.imemWords := rfl
@[simp] theorem setFlags_dmemWords (s : State) (f : Flags) : (setFlags s f).dmemWords = s.dmemWords := rfl
@[simp] theorem setFlags_draws (s : State) (f : Flags) : (setFlags s f).draws = s.draws := rfl
@[simp] theorem setFlags_r0Zero (s : State) (f : Flags) : (setFlags s f).r0Zero = s.r0Zero := rfl

/-! ## setDmem -/

@[simp] theorem setDmem_regs (s : State) (m : Memory) : (setDmem s m).regs = s.regs := rfl
@[simp] theorem setDmem_pc (s : State) (m : Memory) : (setDmem s m).pc = s.pc := rfl
@[simp] theorem setDmem_flags (s : State) (m : Memory) : (setDmem s m).flags = s.flags := rfl
@[simp] theorem setDmem_dmem (s : State) (m : Memory) : (setDmem s m).dmem = m := rfl
@[simp] theorem setDmem_imem (s : State) (m : Memory) : (setDmem s m).imem = s.imem := rfl
@[simp] theorem setDmem_imemWords (s : State) (m : Memory) : (setDmem s m).imemWords = s.imemWords := rfl
@[simp] theorem setDmem_dmemWords (s : State) (m : Memory) : (setDmem s m).dmemWords = s.dmemWords := rfl
@[simp] theorem setDmem_draws (s : State) (m : Memory) : (setDmem s m).draws = s.draws := rfl
@[simp] theorem setDmem_r0Zero (s : State) (m : Memory) : (setDmem s m).r0Zero = s.r0Zero := rfl

/-! ## setImem -/

@[simp] theorem setImem_regs (s : State) (m : Memory) : (setImem s m).regs = s.regs := rfl
@[simp] theorem setImem_pc (s : State) (m : Memory) : (setImem s m).pc = s.pc := rfl
@[simp] theorem setImem_flags (s : State) (m : Memory) : (setImem s m).flags = s.flags := rfl
@[simp] theorem setImem_dmem (s : State) (m : Memory) : (setImem s m).dmem = s.dmem := rfl
@[simp] theorem setImem_imem (s : State) (m : Memory) : (setImem s m).imem = m := rfl
@[simp] theorem setImem_imemWords (s : State) (m : Memory) : (setImem s m).imemWords = s.imemWords := rfl
@[simp] theorem setImem_dmemWords (s : State) (m : Memory) : (setImem s m).dmemWords = s.dmemWords := rfl
@[simp] theorem setImem_draws (s : State) (m : Memory) : (setImem s m).draws = s.draws := rfl
@[simp] theorem setImem_r0Zero (s : State) (m : Memory) : (setImem s m).r0Zero = s.r0Zero := rfl

/-! ## setImemWords -/

@[simp] theorem setImemWords_regs (s : State) (n : Nat) : (setImemWords s n).regs = s.regs := rfl
@[simp] theorem setImemWords_pc (s : State) (n : Nat) : (setImemWords s n).pc = s.pc := rfl
@[simp] theorem setImemWords_flags (s : State) (n : Nat) : (setImemWords s n).flags = s.flags := rfl
@[simp] theorem setImemWords_dmem (s : State) (n : Nat) : (setImemWords s n).dmem = s.dmem := rfl
@[simp] theorem setImemWords_imem (s : State) (n : Nat) : (setImemWords s n).imem = s.imem := rfl
@[simp] theorem setImemWords_imemWords (s : State) (n : Nat) : (setImemWords s n).imemWords = n := rfl
@[simp] theorem setImemWords_dmemWords (s : State) (n : Nat) : (setImemWords s n).dmemWords = s.dmemWords := rfl
@[simp] theorem setImemWords_draws (s : State) (n : Nat) : (setImemWords s n).draws = s.draws := rfl
@[simp] theorem setImemWords_r0Zero (s : State) (n : Nat) : (setImemWords s n).r0Zero = s.r0Zero := rfl

/-! ## drawn -/

@[simp] theorem drawn_regs (s : State) : (drawn s).regs = s.regs := rfl
@[simp] theorem drawn_pc (s : State) : (drawn s).pc = s.pc := rfl
@[simp] theorem drawn_flags (s : State) : (drawn s).flags = s.flags := rfl
@[simp] theorem drawn_dmem (s : State) : (drawn s).dmem = s.dmem := rfl
@[simp] theorem drawn_imem (s : State) : (drawn s).imem = s.imem := rfl
@[simp] theorem drawn_imemWords (s : State) : (drawn s).imemWords = s.imemWords := rfl
@[simp] theorem drawn_dmemWords (s : State) : (drawn s).dmemWords = s.dmemWords := rfl
@[simp] theorem drawn_draws (s : State) : (drawn s).draws = s.draws + 1 := rfl
@[simp] theorem drawn_r0Zero (s : State) : (drawn s).r0Zero = s.r0Zero := rfl

/-! ## advance -/

@[simp] theorem advance_regs (s : State) : (advance s).regs = s.regs := rfl
@[simp] theorem advance_pc (s : State) : (advance s).pc = s.pc + 1#32 := rfl
@[simp] theorem advance_flags (s : State) : (advance s).flags = s.flags := rfl
@[simp] theorem advance_dmem (s : State) : (advance s).dmem = s.dmem := rfl
@[simp] theorem advance_imem (s : State) : (advance s).imem = s.imem := rfl
@[simp] theorem advance_imemWords (s : State) : (advance s).imemWords = s.imemWords := rfl
@[simp] theorem advance_dmemWords (s : State) : (advance s).dmemWords = s.dmemWords := rfl
@[simp] theorem advance_draws (s : State) : (advance s).draws = s.draws := rfl
@[simp] theorem advance_r0Zero (s : State) : (advance s).r0Zero = s.r0Zero := rfl

/-! ## writeReg -/

@[simp] theorem writeReg_pc (s : State) (r : Reg) (v : Word) : (writeReg s r v).pc = s.pc := by
  unfold writeReg; split <;> rfl
@[simp] theorem writeReg_flags (s : State) (r : Reg) (v : Word) : (writeReg s r v).flags = s.flags := by
  unfold writeReg; split <;> rfl
@[simp] theorem writeReg_dmem (s : State) (r : Reg) (v : Word) : (writeReg s r v).dmem = s.dmem := by
  unfold writeReg; split <;> rfl
@[simp] theorem writeReg_imem (s : State) (r : Reg) (v : Word) : (writeReg s r v).imem = s.imem := by
  unfold writeReg; split <;> rfl
@[simp] theorem writeReg_imemWords (s : State) (r : Reg) (v : Word) : (writeReg s r v).imemWords = s.imemWords := by
  unfold writeReg; split <;> rfl
@[simp] theorem writeReg_dmemWords (s : State) (r : Reg) (v : Word) : (writeReg s r v).dmemWords = s.dmemWords := by
  unfold writeReg; split <;> rfl
@[simp] theorem writeReg_draws (s : State) (r : Reg) (v : Word) : (writeReg s r v).draws = s.draws := by
  unfold writeReg; split <;> rfl
@[simp] theorem writeReg_r0Zero (s : State) (r : Reg) (v : Word) : (writeReg s r v).r0Zero = s.r0Zero := by
  unfold writeReg; split <;> rfl

/-! ## The fetch space: the instruction memory, since `MEM_UNIFIED` is false -/

@[simp] theorem fetchSpace_eq (s : State) : fetchSpace s = s.imem := rfl
@[simp] theorem setFetchSpace_eq (s : State) (m : Memory) : setFetchSpace s m = setImem s m := rfl

/-! ## isHardwired -/

theorem isHardwired_iff {s : State} {r : Reg} : isHardwired s r = true ↔ s.r0Zero = true ∧ r = 0#4 := by
  simp [isHardwired]

/-- Which register is hardwired depends on `R0_ZERO` alone. -/
theorem isHardwired_congr {s t : State} (h : t.r0Zero = s.r0Zero) (r : Reg) : isHardwired t r = isHardwired s r := by
  simp [isHardwired, h]

@[simp] theorem isHardwired_setPc (s : State) (t : Word) (r : Reg) : isHardwired (setPc s t) r = isHardwired s r := rfl
@[simp] theorem isHardwired_setFlags (s : State) (f : Flags) (r : Reg) : isHardwired (setFlags s f) r = isHardwired s r := rfl
@[simp] theorem isHardwired_setDmem (s : State) (m : Memory) (r : Reg) : isHardwired (setDmem s m) r = isHardwired s r := rfl
@[simp] theorem isHardwired_setImem (s : State) (m : Memory) (r : Reg) : isHardwired (setImem s m) r = isHardwired s r := rfl
@[simp] theorem isHardwired_setImemWords (s : State) (n : Nat) (r : Reg) : isHardwired (setImemWords s n) r = isHardwired s r := rfl
@[simp] theorem isHardwired_drawn (s : State) (r : Reg) : isHardwired (drawn s) r = isHardwired s r := rfl
@[simp] theorem isHardwired_advance (s : State) (r : Reg) : isHardwired (advance s) r = isHardwired s r := rfl

@[simp] theorem isHardwired_writeReg (s : State) (c r : Reg) (v : Word) :
    isHardwired (writeReg s c v) r = isHardwired s r := isHardwired_congr (by simp) r

/-! ## readReg -/

/-- A hardwired register reads zero. -/
theorem readReg_hardwired {s : State} {r : Reg} (h : isHardwired s r = true) : readReg s r = 0#32 := by
  simp [readReg, h]

/-- A write to a hardwired register changes nothing. -/
theorem writeReg_hardwired {s : State} {r : Reg} (h : isHardwired s r = true) (v : Word) : writeReg s r v = s := by
  simp [writeReg, h]

/-- What is read depends on the register file and `R0_ZERO` alone. -/
theorem readReg_congr {s t : State} (h : t.regs = s.regs) (hz : t.r0Zero = s.r0Zero) (r : Reg) :
    readReg t r = readReg s r := by
  simp [readReg, isHardwired_congr hz, h]

/-- What a register write leaves in the register file depends on the register file and `R0_ZERO` alone. -/
theorem writeReg_regs_congr {s t : State} (h : t.regs = s.regs) (hz : t.r0Zero = s.r0Zero) (r : Reg) (v : Word) :
    (writeReg t r v).regs = (writeReg s r v).regs := by
  unfold writeReg
  rw [isHardwired_congr hz]
  split
  · exact h
  · simp [h]

@[simp] theorem readReg_setPc (s : State) (t : Word) (r : Reg) : readReg (setPc s t) r = readReg s r := rfl
@[simp] theorem readReg_setFlags (s : State) (f : Flags) (r : Reg) : readReg (setFlags s f) r = readReg s r := rfl
@[simp] theorem readReg_setDmem (s : State) (m : Memory) (r : Reg) : readReg (setDmem s m) r = readReg s r := rfl
@[simp] theorem readReg_setImem (s : State) (m : Memory) (r : Reg) : readReg (setImem s m) r = readReg s r := rfl
@[simp] theorem readReg_setImemWords (s : State) (n : Nat) (r : Reg) : readReg (setImemWords s n) r = readReg s r := rfl
@[simp] theorem readReg_drawn (s : State) (r : Reg) : readReg (drawn s) r = readReg s r := rfl
@[simp] theorem readReg_advance (s : State) (r : Reg) : readReg (advance s) r = readReg s r := rfl

/-- Everything a register write does to a register read: a hardwired register stays zero, the written register holds the
value, every other register is as before. -/
theorem readReg_writeReg (s : State) (c r : Reg) (v : Word) :
    readReg (writeReg s c v) r = if isHardwired s r then 0#32 else if r = c then v else readReg s r := by
  by_cases hr : isHardwired s r = true
  · rw [if_pos hr, readReg_hardwired (by simpa using hr)]
  rw [if_neg hr]
  by_cases h : r = c
  · subst h; rw [if_pos rfl, readReg, if_neg (by simpa using hr)]; simp [writeReg, hr]
  · by_cases hc : isHardwired s c = true
    · simp [writeReg_hardwired hc, h]
    · have hn : c.toNat ≠ r.toNat := fun e => h (BitVec.eq_of_toNat_eq e.symm)
      rw [if_neg h]
      simp only [readReg, isHardwired_writeReg, hr]
      simp [writeReg, hc, hn]

theorem readReg_writeReg_same (s : State) {c : Reg} (v : Word) (h : isHardwired s c = false) :
    readReg (writeReg s c v) c = v := by
  simp [readReg_writeReg, h]

theorem readReg_writeReg_other (s : State) {c r : Reg} (v : Word) (h : r ≠ c) :
    readReg (writeReg s c v) r = readReg s r := by
  rw [readReg_writeReg, if_neg h]
  split
  · rename_i hr; rw [readReg_hardwired hr]
  · rfl

/-- A hardwired register's cell is never written. -/
theorem writeReg_regs_zero {s : State} (h : s.r0Zero = true) (c : Reg) (v : Word) :
    (writeReg s c v).regs[0] = s.regs[0] := by
  by_cases hc : isHardwired s c = true
  · rw [writeReg_hardwired hc]
  · have hn : c.toNat ≠ 0 := fun e => hc (isHardwired_iff.2 ⟨h, BitVec.eq_of_toNat_eq e⟩)
    simp [writeReg, hc, hn]

end Sys2Proof.Machine
end

