-- ==== Sys2Proof/Laws/Ops.lean ====
section
/-! SUPPORT. For each shared operation, one lemma that says everything it can do. -/

namespace Sys2Proof.Machine

/-- A read that answers: the address is implemented; the value is the word, free bytes where none is listed; the state is
the old one, with one more draw where some byte is not listed (20_memory.md R43). -/
theorem memRead_ok {s : State} {addr v : Word} {t : State} (h : memRead s addr = .ok (v, t)) :
    addr.toNat < s.dmemWords ∧ v = readWordOr s.dmem addr.toNat (Config.freeWord s.draws)
      ∧ t = if wordListed s.dmem addr.toNat then s else drawn s := by
  unfold memRead at h
  split at h
  · rename_i hi
    cases h
    exact ⟨by simpa [dataImplemented] using hi, rfl, rfl⟩
  · cases h

/-- A read that faults: the address is not implemented, and the fault records it (R47). -/
theorem memRead_error {s : State} {addr : Word} {f : Fault} (h : memRead s addr = .error f) :
    s.dmemWords ≤ addr.toNat ∧ f = .dataOutOfRange addr := by
  unfold memRead at h
  split at h
  · cases h
  · rename_i hi
    cases h
    exact ⟨by simpa [dataImplemented] using hi, rfl⟩

/-- A read of an implemented address answers. -/
theorem memRead_of_lt {s : State} {addr : Word} (h : addr.toNat < s.dmemWords) :
    memRead s addr = .ok (readWordOr s.dmem addr.toNat (Config.freeWord s.draws),
      if wordListed s.dmem addr.toNat then s else drawn s) := by
  simp [memRead, dataImplemented, h]

/-- A read of a word that has been written answers it and changes nothing. -/
theorem memRead_listed {s : State} {addr w : Word} (h : addr.toNat < s.dmemWords)
    (hw : readWord s.dmem addr.toNat = some w) : memRead s addr = .ok (w, s) := by
  obtain ⟨hl, hv⟩ := readWord_eq_some hw (Config.freeWord s.draws)
  simp [memRead_of_lt h, hl, hv]

/-- A write that answers: the address is implemented and only the data memory changes (R44). -/
theorem memWrite_ok {s t : State} {addr v : Word} (h : memWrite s addr v = .ok t) :
    addr.toNat < s.dmemWords ∧ t = setDmem s (writeWord s.dmem addr.toNat v) := by
  unfold memWrite at h
  split at h
  · rename_i hi
    cases h
    exact ⟨by simpa [dataImplemented] using hi, rfl⟩
  · cases h

/-- A write that faults: the address is not implemented, and the fault records it (R47). -/
theorem memWrite_error {s : State} {addr v : Word} {f : Fault} (h : memWrite s addr v = .error f) :
    s.dmemWords ≤ addr.toNat ∧ f = .dataOutOfRange addr := by
  unfold memWrite at h
  split at h
  · cases h
  · rename_i hi
    cases h
    exact ⟨by simpa [dataImplemented] using hi, rfl⟩

/-- A write to an implemented address answers. -/
theorem memWrite_of_lt {s : State} {addr : Word} (v : Word) (h : addr.toNat < s.dmemWords) :
    memWrite s addr v = .ok (setDmem s (writeWord s.dmem addr.toNat v)) := by
  simp [memWrite, dataImplemented, h]

/-- A fetch answers exactly the word the image holds at an implemented pc (R47, R172). -/
theorem fetch_ok {s : State} {w : Word} :
    fetch s = .ok w ↔ s.pc.toNat < s.imemWords ∧ readWord s.imem s.pc.toNat = some w := by
  unfold fetch
  split
  · rename_i h
    cases hr : readWord s.imem s.pc.toNat <;> simp [h, hr]
  · rename_i h
    simp [h]

/-- A fetch faults in one way only. -/
theorem fetch_error {s : State} {f : Fault} (h : fetch s = .error f) : f = .fetchOutOfRange s.pc := by
  unfold fetch at h
  split at h
  · split at h <;> cases h
    rfl
  · cases h; rfl

/-- A fetch depends on the pc, the image and its size alone. -/
theorem fetch_congr {s t : State} (hpc : t.pc = s.pc) (himem : t.imem = s.imem) (hsize : t.imemWords = s.imemWords) :
    fetch t = fetch s := by
  simp only [fetch, fetchSpace_eq, hpc, himem, hsize]

/-! ## The shapes of Operands.lean -/

/-- What the shifts compute for the spec's `SHIFT_AMOUNT` of one position (42_alu.md R126). -/
theorem moved_eq (x : Word) : movedLeft x = x <<< 1 ∧ movedRight x = x >>> 1 ∧ movedRightArith x = x.sshiftRight 1
    ∧ shiftedOutLeft x = x.getLsbD 31 := ⟨rfl, rfl, rfl, rfl⟩

/-- Everything a logic result does. -/
theorem finishLogic_spec (s : State) (c : Reg) (r : Word) :
    (finishLogic s c r).regs = (writeReg s c r).regs ∧ (finishLogic s c r).pc = s.pc + 1#32
      ∧ (finishLogic s c r).flags = withNegZero s.flags r ∧ (finishLogic s c r).dmem = s.dmem
      ∧ (finishLogic s c r).imem = s.imem ∧ (finishLogic s c r).imemWords = s.imemWords
      ∧ (finishLogic s c r).dmemWords = s.dmemWords ∧ (finishLogic s c r).r0Zero = s.r0Zero
      ∧ (finishLogic s c r).draws = s.draws := by
  simp [finishLogic]

/-- Everything an adder result does. -/
theorem finishSum_spec (s : State) (c : Reg) (sum : AdderResult) :
    (finishSum s c sum).regs = (writeReg s c sum.result).regs ∧ (finishSum s c sum).pc = s.pc + 1#32
      ∧ (finishSum s c sum).flags = flagsOfSum sum ∧ (finishSum s c sum).dmem = s.dmem
      ∧ (finishSum s c sum).imem = s.imem ∧ (finishSum s c sum).imemWords = s.imemWords
      ∧ (finishSum s c sum).dmemWords = s.dmemWords ∧ (finishSum s c sum).r0Zero = s.r0Zero
      ∧ (finishSum s c sum).draws = s.draws := by
  simp [finishSum]

/-- Everything a constant does. -/
theorem finishConstant_spec (s : State) (c : Reg) (v : Word) :
    (finishConstant s c v).regs = (writeReg s c v).regs ∧ (finishConstant s c v).pc = s.pc + 1#32
      ∧ (finishConstant s c v).flags = s.flags ∧ (finishConstant s c v).dmem = s.dmem
      ∧ (finishConstant s c v).imem = s.imem ∧ (finishConstant s c v).imemWords = s.imemWords
      ∧ (finishConstant s c v).dmemWords = s.dmemWords ∧ (finishConstant s c v).r0Zero = s.r0Zero
      ∧ (finishConstant s c v).draws = s.draws := by
  simp [finishConstant]

/-- Reading the flags of a condition leaves the state as it is or draws once. -/
theorem afterFlagRead_cases (s : State) (cond : Cond) : afterFlagRead s cond = s ∨ afterFlagRead s cond = drawn s := by
  unfold afterFlagRead
  split
  · exact .inr rfl
  · exact .inl rfl

/-- Everything a conditional jump does. -/
theorem condJump_spec (s : State) (sense : Bool) (cond : Cond) (target : Word) :
    (condJump s sense cond target).pc = (if holds s cond = sense then target else s.pc + 1#32)
      ∧ (condJump s sense cond target).regs = s.regs ∧ (condJump s sense cond target).flags = s.flags
      ∧ (condJump s sense cond target).dmem = s.dmem ∧ (condJump s sense cond target).imem = s.imem
      ∧ (condJump s sense cond target).imemWords = s.imemWords
      ∧ (condJump s sense cond target).dmemWords = s.dmemWords
      ∧ (condJump s sense cond target).r0Zero = s.r0Zero
      ∧ ((condJump s sense cond target).draws = s.draws ∨ (condJump s sense cond target).draws = s.draws + 1) := by
  rcases afterFlagRead_cases s cond with h | h <;> simp [condJump, h, nextPc]

end Sys2Proof.Machine
end

