-- ==== Sys2Proof/Laws/PerInstr.lean ====
section
/-! SUPPORT. Per-instruction laws about the encoding: the encoder, written from the format tables of 30_encoding.md R62 to
R75, gives words that match the instruction's row of spec/opcode_table.json (R76). -/

namespace Sys2Proof.Laws

/-! ## The masked word of each format -/

theorem encodeA_cab_masked (op : BitVec 5) (c a b : Reg) :
    encodeA op c a b &&& 0xFF000FFF#32 = encodeA op 0#4 0#4 0#4 := by
  refine BitVec.eq_of_getLsbD_eq fun i hi => ?_
  simp only [encodeA, BitVec.getLsbD_and, BitVec.getLsbD_append]
  interval_cases i <;> simp

theorem encodeA_ca_masked (op : BitVec 5) (c a : Reg) :
    encodeA op c a 0#4 &&& 0xFF00FFFF#32 = encodeA op 0#4 0#4 0#4 := by
  refine BitVec.eq_of_getLsbD_eq fun i hi => ?_
  simp only [encodeA, BitVec.getLsbD_and, BitVec.getLsbD_append]
  interval_cases i <;> simp

theorem encodeA_c_masked (op : BitVec 5) (c : Reg) :
    encodeA op c 0#4 0#4 &&& 0xFF0FFFFF#32 = encodeA op 0#4 0#4 0#4 := by
  refine BitVec.eq_of_getLsbD_eq fun i hi => ?_
  simp only [encodeA, BitVec.getLsbD_and, BitVec.getLsbD_append]
  interval_cases i <;> simp

theorem encodeM_ca_masked (op : BitVec 5) (c a : Reg) :
    encodeM op c a 0#4 &&& 0xFF00FFFF#32 = encodeM op 0#4 0#4 0#4 := by
  refine BitVec.eq_of_getLsbD_eq fun i hi => ?_
  simp only [encodeM, BitVec.getLsbD_and, BitVec.getLsbD_append]
  interval_cases i <;> simp

theorem encodeM_ab_masked (op : BitVec 5) (a b : Reg) :
    encodeM op 0#4 a b &&& 0xFFF00FFF#32 = encodeM op 0#4 0#4 0#4 := by
  refine BitVec.eq_of_getLsbD_eq fun i hi => ?_
  simp only [encodeM, BitVec.getLsbD_and, BitVec.getLsbD_append]
  interval_cases i <;> simp

theorem encodeKI_masked (c : Reg) (k : BitVec 16) :
    encodeKI c k &&& 0xFF0F0000#32 = encodeKI 0#4 0#16 := by
  refine BitVec.eq_of_getLsbD_eq fun i hi => ?_
  simp only [encodeKI, BitVec.getLsbD_and, BitVec.getLsbD_append]
  interval_cases i <;> simp

theorem encodeKII_masked (r : BitVec 1) (c : Reg) (k : BitVec 8) :
    encodeKII r c k &&& 0xFF0FFF00#32 = encodeKII r 0#4 0#8 := by
  refine BitVec.eq_of_getLsbD_eq fun i hi => ?_
  simp only [encodeKII, BitVec.getLsbD_and, BitVec.getLsbD_append]
  interval_cases i <;> simp

theorem encodeJI_masked (jop : BitVec 2) (cond : Cond) (t : Word) :
    encodeJI jop cond t &&& 0xFFF00000#32 = encodeJI jop cond 0#32 := by
  refine BitVec.eq_of_getLsbD_eq fun i hi => ?_
  simp only [encodeJI, BitVec.getLsbD_and, BitVec.getLsbD_append]
  interval_cases i <;> simp

theorem encodeJII_masked (t : Word) :
    encodeJII t &&& 0xFF000000#32 = encodeJII 0#32 := by
  refine BitVec.eq_of_getLsbD_eq fun i hi => ?_
  simp only [encodeJII, BitVec.getLsbD_and, BitVec.getLsbD_append]
  interval_cases i <;> simp

theorem encodeJR_masked (r : BitVec 1) (b : Reg) :
    encodeJR r b &&& 0xFFFF0FFF#32 = encodeJR r 0#4 := by
  refine BitVec.eq_of_getLsbD_eq fun i hi => ?_
  simp only [encodeJR, BitVec.getLsbD_and, BitVec.getLsbD_append]
  interval_cases i <;> simp

/-! ## One lemma per instruction -/

/-- The encoding of the instruction matches its row of the table. -/
def MatchesTableRow.Statement (i : Instr) : Prop := (rowOf i).isMatch (encode i) = true

/-- A masked word that is the row's pattern is a match. -/
theorem isMatch_of_masked {row : TableRow} {w p : Word} (h : w &&& row.mask = p) (hp : p = row.pattern) :
    row.isMatch w = true := by
  simp [TableRow.isMatch, h, hp]

theorem MatchesTableRow.load (c a : Reg) : MatchesTableRow.Statement (.load c a) :=
  isMatch_of_masked (encodeM_ca_masked _ c a) rfl

theorem MatchesTableRow.store (a b : Reg) : MatchesTableRow.Statement (.store a b) :=
  isMatch_of_masked (encodeM_ab_masked _ a b) rfl

theorem MatchesTableRow.loadlit (c : Reg) (imm : Word) : MatchesTableRow.Statement (.loadlit c imm) :=
  isMatch_of_masked (encodeKI_masked c _) rfl

theorem MatchesTableRow.lcl (c : Reg) (const8 : BitVec 8) : MatchesTableRow.Statement (.lcl c const8) :=
  isMatch_of_masked (encodeKII_masked _ c const8) rfl

theorem MatchesTableRow.lch (c : Reg) (const8 : BitVec 8) : MatchesTableRow.Statement (.lch c const8) :=
  isMatch_of_masked (encodeKII_masked _ c const8) rfl

theorem MatchesTableRow.zeros (c : Reg) : MatchesTableRow.Statement (.zeros c) :=
  isMatch_of_masked (encodeA_c_masked _ c) rfl

theorem MatchesTableRow.and (c a b : Reg) : MatchesTableRow.Statement (.and c a b) :=
  isMatch_of_masked (encodeA_cab_masked _ c a b) rfl

theorem MatchesTableRow.andnota (c a b : Reg) : MatchesTableRow.Statement (.andnota c a b) :=
  isMatch_of_masked (encodeA_cab_masked _ c a b) rfl

theorem MatchesTableRow.passa (c a : Reg) : MatchesTableRow.Statement (.passa c a) :=
  isMatch_of_masked (encodeA_ca_masked _ c a) rfl

theorem MatchesTableRow.xor (c a b : Reg) : MatchesTableRow.Statement (.xor c a b) :=
  isMatch_of_masked (encodeA_cab_masked _ c a b) rfl

theorem MatchesTableRow.or (c a b : Reg) : MatchesTableRow.Statement (.or c a b) :=
  isMatch_of_masked (encodeA_cab_masked _ c a b) rfl

theorem MatchesTableRow.nor (c a b : Reg) : MatchesTableRow.Statement (.nor c a b) :=
  isMatch_of_masked (encodeA_cab_masked _ c a b) rfl

theorem MatchesTableRow.xnor (c a b : Reg) : MatchesTableRow.Statement (.xnor c a b) :=
  isMatch_of_masked (encodeA_cab_masked _ c a b) rfl

theorem MatchesTableRow.passnota (c a : Reg) : MatchesTableRow.Statement (.passnota c a) :=
  isMatch_of_masked (encodeA_ca_masked _ c a) rfl

theorem MatchesTableRow.ornotb (c a b : Reg) : MatchesTableRow.Statement (.ornotb c a b) :=
  isMatch_of_masked (encodeA_cab_masked _ c a b) rfl

theorem MatchesTableRow.nand (c a b : Reg) : MatchesTableRow.Statement (.nand c a b) :=
  isMatch_of_masked (encodeA_cab_masked _ c a b) rfl

theorem MatchesTableRow.ones (c : Reg) : MatchesTableRow.Statement (.ones c) :=
  isMatch_of_masked (encodeA_c_masked _ c) rfl

theorem MatchesTableRow.add (c a b : Reg) : MatchesTableRow.Statement (.add c a b) :=
  isMatch_of_masked (encodeA_cab_masked _ c a b) rfl

theorem MatchesTableRow.addinc (c a b : Reg) : MatchesTableRow.Statement (.addinc c a b) :=
  isMatch_of_masked (encodeA_cab_masked _ c a b) rfl

theorem MatchesTableRow.inca (c a : Reg) : MatchesTableRow.Statement (.inca c a) :=
  isMatch_of_masked (encodeA_ca_masked _ c a) rfl

theorem MatchesTableRow.subdec (c a b : Reg) : MatchesTableRow.Statement (.subdec c a b) :=
  isMatch_of_masked (encodeA_cab_masked _ c a b) rfl

theorem MatchesTableRow.sub (c a b : Reg) : MatchesTableRow.Statement (.sub c a b) :=
  isMatch_of_masked (encodeA_cab_masked _ c a b) rfl

theorem MatchesTableRow.deca (c a : Reg) : MatchesTableRow.Statement (.deca c a) :=
  isMatch_of_masked (encodeA_ca_masked _ c a) rfl

theorem MatchesTableRow.lsl (c a : Reg) : MatchesTableRow.Statement (.lsl c a) :=
  isMatch_of_masked (encodeA_ca_masked _ c a) rfl

theorem MatchesTableRow.lsr (c a : Reg) : MatchesTableRow.Statement (.lsr c a) :=
  isMatch_of_masked (encodeA_ca_masked _ c a) rfl

theorem MatchesTableRow.asr (c a : Reg) : MatchesTableRow.Statement (.asr c a) :=
  isMatch_of_masked (encodeA_ca_masked _ c a) rfl

theorem MatchesTableRow.asl (c a : Reg) : MatchesTableRow.Statement (.asl c a) :=
  isMatch_of_masked (encodeA_ca_masked _ c a) rfl

theorem MatchesTableRow.jfNeg (target : Word) : MatchesTableRow.Statement (.jfNeg target) :=
  isMatch_of_masked (encodeJI_masked _ _ target) rfl

theorem MatchesTableRow.jfZero (target : Word) : MatchesTableRow.Statement (.jfZero target) :=
  isMatch_of_masked (encodeJI_masked _ _ target) rfl

theorem MatchesTableRow.jfCarry (target : Word) : MatchesTableRow.Statement (.jfCarry target) :=
  isMatch_of_masked (encodeJI_masked _ _ target) rfl

theorem MatchesTableRow.jfNegzero (target : Word) : MatchesTableRow.Statement (.jfNegzero target) :=
  isMatch_of_masked (encodeJI_masked _ _ target) rfl

theorem MatchesTableRow.jfTrue (target : Word) : MatchesTableRow.Statement (.jfTrue target) :=
  isMatch_of_masked (encodeJI_masked _ _ target) rfl

theorem MatchesTableRow.jfOverflow (target : Word) : MatchesTableRow.Statement (.jfOverflow target) :=
  isMatch_of_masked (encodeJI_masked _ _ target) rfl

theorem MatchesTableRow.jtNeg (target : Word) : MatchesTableRow.Statement (.jtNeg target) :=
  isMatch_of_masked (encodeJI_masked _ _ target) rfl

theorem MatchesTableRow.jtZero (target : Word) : MatchesTableRow.Statement (.jtZero target) :=
  isMatch_of_masked (encodeJI_masked _ _ target) rfl

theorem MatchesTableRow.jtCarry (target : Word) : MatchesTableRow.Statement (.jtCarry target) :=
  isMatch_of_masked (encodeJI_masked _ _ target) rfl

theorem MatchesTableRow.jtNegzero (target : Word) : MatchesTableRow.Statement (.jtNegzero target) :=
  isMatch_of_masked (encodeJI_masked _ _ target) rfl

theorem MatchesTableRow.jtTrue (target : Word) : MatchesTableRow.Statement (.jtTrue target) :=
  isMatch_of_masked (encodeJI_masked _ _ target) rfl

theorem MatchesTableRow.jtOverflow (target : Word) : MatchesTableRow.Statement (.jtOverflow target) :=
  isMatch_of_masked (encodeJI_masked _ _ target) rfl

theorem MatchesTableRow.j (target : Word) : MatchesTableRow.Statement (.j target) :=
  isMatch_of_masked (encodeJII_masked target) rfl

theorem MatchesTableRow.jal (b : Reg) : MatchesTableRow.Statement (.jal b) :=
  isMatch_of_masked (encodeJR_masked _ b) rfl

theorem MatchesTableRow.jr (b : Reg) : MatchesTableRow.Statement (.jr b) :=
  isMatch_of_masked (encodeJR_masked _ b) rfl

theorem MatchesTableRow.nop : MatchesTableRow.Statement .nop := by
  unfold MatchesTableRow.Statement
  decide

end Sys2Proof.Laws
end

