-- ==== Sys2Proof/Laws/Run.lean ====
section
/-! SUPPORT. What each part of a start state does, said once (spec/70_reset_and_hazards.md R172). -/

namespace Sys2Proof.Machine

/-- A run starts exactly where its numbers fit. -/
theorem startOfRun_eq_some {r : RunStart} {s : State} : startOfRun r = some s ↔ r.wf = true ∧ r.state = s := by
  unfold startOfRun
  split
  · rename_i h; simp [h]
  · rename_i h; simp [h]

theorem RunStart.wf_iff {r : RunStart} : r.wf = true ↔
    (1 ≤ r.imemWords ∧ r.imemWords ≤ 2 ^ 32) ∧ (1 ≤ r.dmemWords ∧ r.dmemWords ≤ 2 ^ 32)
      ∧ r.image.length ≤ r.imemWords ∧ ∀ word ∈ r.data, word.1.toNat < r.dmemWords := by
  simp only [RunStart.wf, Bool.and_eq_true, decide_eq_true_eq, List.all_eq_true, and_assoc]

/-! ## Registers -/

/-- Placing registers changes no field but the register file. -/
theorem placeRegisters_fields (s : State) (registers : List (Reg × Word)) :
    (placeRegisters s registers).pc = s.pc ∧ (placeRegisters s registers).flags = s.flags
      ∧ (placeRegisters s registers).dmem = s.dmem ∧ (placeRegisters s registers).imem = s.imem
      ∧ (placeRegisters s registers).imemWords = s.imemWords ∧ (placeRegisters s registers).dmemWords = s.dmemWords
      ∧ (placeRegisters s registers).r0Zero = s.r0Zero ∧ (placeRegisters s registers).draws = s.draws := by
  induction registers generalizing s with
  | nil => simp [placeRegisters]
  | cons p rest ih => simpa [placeRegisters] using ih (writeReg s p.1 p.2)

theorem placeRegisters_append (s : State) (before after : List (Reg × Word)) :
    placeRegisters s (before ++ after) = placeRegisters (placeRegisters s before) after := by
  induction before generalizing s with
  | nil => rfl
  | cons p rest ih => exact ih _

/-- A register that is not named is as before. -/
theorem readReg_placeRegisters_other (s : State) {registers : List (Reg × Word)} {c : Reg}
    (h : c ∉ registers.map Prod.fst) : readReg (placeRegisters s registers) c = readReg s c := by
  induction registers generalizing s with
  | nil => rfl
  | cons p rest ih =>
    simp only [List.map_cons, List.mem_cons, not_or] at h
    rw [placeRegisters, ih _ h.2, readReg_writeReg_other _ _ h.1]

/-- The cell of a hardwired register is never placed. -/
theorem placeRegisters_regs_zero {s : State} (h : s.r0Zero = true) (registers : List (Reg × Word)) :
    (placeRegisters s registers).regs[0] = s.regs[0] := by
  induction registers generalizing s with
  | nil => rfl
  | cons p rest ih => rw [placeRegisters, ih (by simpa using h), writeReg_regs_zero h]

/-! ## Flags -/

/-- Placing flags changes no field but RF. -/
theorem placeFlags_fields (s : State) (flags : List (FlagName × Bool)) :
    (placeFlags s flags).regs = s.regs ∧ (placeFlags s flags).pc = s.pc ∧ (placeFlags s flags).dmem = s.dmem
      ∧ (placeFlags s flags).imem = s.imem ∧ (placeFlags s flags).imemWords = s.imemWords
      ∧ (placeFlags s flags).dmemWords = s.dmemWords ∧ (placeFlags s flags).r0Zero = s.r0Zero
      ∧ (placeFlags s flags).draws = s.draws := by
  induction flags generalizing s with
  | nil => simp [placeFlags]
  | cons p rest ih => simpa [placeFlags] using ih (setFlags s (withFlag s.flags p.1 p.2))

theorem placeFlags_append (s : State) (before after : List (FlagName × Bool)) :
    placeFlags s (before ++ after) = placeFlags (placeFlags s before) after := by
  induction before generalizing s with
  | nil => rfl
  | cons p rest ih => exact ih _

/-- Everything setting one flag does. -/
theorem flagNamed_withFlag (f : Flags) (name other : FlagName) (b : Bool) :
    flagNamed (withFlag f name b) other = if other = name then .bit b else flagNamed f other := by
  cases name <;> cases other <;> rfl

/-- A flag that is not named is as before. -/
theorem flagNamed_placeFlags_other (s : State) {flags : List (FlagName × Bool)} {name : FlagName}
    (h : name ∉ flags.map Prod.fst) : flagNamed (placeFlags s flags).flags name = flagNamed s.flags name := by
  induction flags generalizing s with
  | nil => rfl
  | cons p rest ih =>
    simp only [List.map_cons, List.mem_cons, not_or] at h
    rw [placeFlags, ih _ h.2, setFlags_flags, flagNamed_withFlag, if_neg h.1]

end Sys2Proof.Machine
end

