-- ==== Sys2Proof/Laws/Step.lean ====
section
/-! SUPPORT. What a step and a run of steps can do, said once. -/

namespace Sys2Proof.Machine

/-- A step that answers is the decoded instruction at an implemented pc (spec/30_encoding.md R79). -/
theorem step_next {s t : State} :
    step s = .next t ↔ ∃ w i, fetch s = .ok w ∧ decode w = .ok i ∧ exec i s = .next t := by
  unfold step
  cases hf : fetch s with
  | error f => simp
  | ok w =>
    cases hd : decode w with
    | error e => simp [hd]
    | ok i => simp [hd]

/-- A run of no steps. -/
theorem run_zero {s t : State} : Sys2Proof.core.run 0 s = .next t ↔ s = t :=
  ⟨fun h => by cases h; rfl, fun h => by rw [h]; rfl⟩

/-- A run of one more step. -/
theorem run_succ {k : Nat} {s t : State} :
    Sys2Proof.core.run (k + 1) s = .next t ↔ ∃ u, step s = .next u ∧ Sys2Proof.core.run k u = .next t := by
  simp only [Host.Core.run]
  cases hs : step s with
  | next u =>
    rw [show Sys2Proof.core.step s = .next u from hs]
    exact ⟨fun h => ⟨u, rfl, h⟩, fun ⟨v, hv, h⟩ => by cases hv; exact h⟩
  | fault f =>
    rw [show Sys2Proof.core.step s = .fault f from hs]
    exact ⟨fun h => (nomatch h), fun ⟨_, hv, _⟩ => (nomatch hv)⟩
  | refused r =>
    rw [show Sys2Proof.core.step s = .refused r from hs]
    exact ⟨fun h => (nomatch h), fun ⟨_, hv, _⟩ => (nomatch hv)⟩

/-- A state is halted exactly when its next word is `j` to its own pc (spec/44_nop_halt.md R142). -/
theorem halted_iff {s : State} :
    Sys2Proof.Safety.halted s = true ↔ ∃ w, fetch s = .ok w ∧ decode w = .ok (.j s.pc) := by
  unfold Sys2Proof.Safety.halted
  cases hf : fetch s <;> simp

end Sys2Proof.Machine
end

