-- ==== Sys2Proof/Tests/Slice0.lean ====
section
/-! SUPPORT. The model's own tests. Every expected value is a line of spec/95_test_vectors.md or an example of the
instruction's rule; the witnesses at the end show that the hypotheses of the statements can be met. -/

namespace Sys2Proof.Tests

open Sys2Proof.Machine Sys2Proof.Claims Sys2Proof.Safety

/-! ## Helpers -/

/-- Flags in the order nzcv. -/
def nzcv (n z c v : Bool) : Flags := { neg := .bit n, zero := .bit z, carry := .bit c, overflow := .bit v }

/-- Reset with r1 and r2 given. -/
def withR1R2 (x y : Word) : State := writeReg (writeReg State.reset 1#4 x) 2#4 y

/-- Reset with one register given. -/
def withReg (r : Reg) (v : Word) : State := writeReg State.reset r v

/-- The common start of 95_test_vectors.md 2.3. -/
def aluStart : State := withR1R2 0xF0F0F0F0#32 0xFF00FF00#32

/-- A register after an outcome. -/
def regAfter (o : Result) (r : Reg) : Option Word :=
  match o with
  | .next t => some (readReg t r)
  | _ => none

/-- The flags after an outcome. -/
def flagsAfter (o : Result) : Option Flags :=
  match o with
  | .next t => some t.flags
  | _ => none

/-- The pc after an outcome. -/
def pcAfter (o : Result) : Option Word :=
  match o with
  | .next t => some t.pc
  | _ => none

/-- A data word after an outcome. -/
def dataAfter (o : Result) (n : Nat) : Option Word :=
  match o with
  | .next t => readWord t.dmem n
  | _ => none

/-- The fault of an outcome. -/
def faultOf (o : Result) : Option Fault :=
  match o with
  | .fault f => some f
  | _ => none

/-- r3 and the flags after an instruction. -/
def r3Flags (o : Result) : Option (Word × Flags) :=
  match o with
  | .next t => some (readReg t 3#4, t.flags)
  | _ => none

/-! ## WellFormed: each check refuses an ill-formed term (30_encoding.md R72) -/

theorem test_wf_const_above : (Instr.loadlit 1#4 0x00008000#32).wf = false := by decide
theorem test_wf_const_below : (Instr.loadlit 1#4 0xFFFF7FFF#32).wf = false := by decide
theorem test_wf_jf_target : (Instr.jfZero 0x00100000#32).wf = false := by decide
theorem test_wf_jt_target : (Instr.jtCarry 0x00100000#32).wf = false := by decide
theorem test_wf_j_target : (Instr.j 0x01000000#32).wf = false := by decide
theorem test_wf_bounds : (Instr.loadlit 1#4 0x00007FFF#32).wf = true ∧ (Instr.loadlit 1#4 0xFFFF8000#32).wf = true
    ∧ (Instr.jfNeg 0x000FFFFF#32).wf = true ∧ (Instr.j 0x00FFFFFF#32).wf = true := by decide

/-! ## Decode: words written out from the format tables of 30_encoding.md R63 to R75 -/

/-- Formats M, K-I, K-II field by field (R64, R65, R66). -/
theorem test_decode_fields_memory_constants :
    decode (0b010#3 ++ 0b10100#5 ++ 0b0100#4 ++ 0b0101#4 ++ 0b0000#4 ++ 0b000000000000#12) = .ok (.load 4#4 5#4)
      ∧ decode (0b010#3 ++ 0b10110#5 ++ 0b0000#4 ++ 0b0101#4 ++ 0b0110#4 ++ 0b000000000000#12) = .ok (.store 5#4 6#4)
      ∧ decode (0b011#3 ++ 0b00000#5 ++ 0b0001#4 ++ 0b0000#4 ++ 0b1000000000000000#16)
          = .ok (.loadlit 1#4 0xFFFF8000#32)
      ∧ decode (0b100#3 ++ 0b0#1 ++ 0b0000#4 ++ 0b0010#4 ++ 0b000000000000#12 ++ 0b00110100#8) = .ok (.lcl 2#4 0x34#8)
      ∧ decode (0b100#3 ++ 0b1#1 ++ 0b0000#4 ++ 0b0010#4 ++ 0b000000000000#12 ++ 0b00010010#8)
          = .ok (.lch 2#4 0x12#8) := by decide

/-- Format A field by field (R63). -/
theorem test_decode_fields_alu :
    decode (0b001#3 ++ 0b00010#5 ++ 0b0011#4 ++ 0b0001#4 ++ 0b0010#4 ++ 0b000000000000#12)
      = .ok (.andnota 3#4 1#4 2#4) := by decide

/-- Formats J field by field (R67 to R70, R75). -/
theorem test_decode_fields_control :
    decode (0b101#3 ++ 0b00#2 ++ 0b000#3 ++ 0b0001#4 ++ 0b00000000000000000010#20) = .ok (.jfZero 2#32)
      ∧ decode (0b101#3 ++ 0b01#2 ++ 0b000#3 ++ 0b0010#4 ++ 0b00010010001101000101#20) = .ok (.jtCarry 0x12345#32)
      ∧ decode (0b101#3 ++ 0b10#2 ++ 0b000#3 ++ 0b000000000000000000000110#24) = .ok (.j 6#32)
      ∧ decode (0b101#3 ++ 0b11#2 ++ 0b0#1 ++ 0b0000000000#10 ++ 0b0111#4 ++ 0b000000000000#12) = .ok (.jal 7#4)
      ∧ decode (0b101#3 ++ 0b11#2 ++ 0b1#1 ++ 0b0000000000#10 ++ 0b1111#4 ++ 0b000000000000#12) = .ok (.jr 15#4)
      ∧ decode (0b00000000000000000000000000000000#32) = .ok .nop := by decide

/-- 95_test_vectors.md 2.3: the words of the 22 ALU instructions. -/
theorem test_decode_alu_logic :
    decode 0x20300000#32 = .ok (.zeros 3#4) ∧ decode 0x21312000#32 = .ok (.and 3#4 1#4 2#4)
      ∧ decode 0x22312000#32 = .ok (.andnota 3#4 1#4 2#4) ∧ decode 0x23310000#32 = .ok (.passa 3#4 1#4)
      ∧ decode 0x24312000#32 = .ok (.xor 3#4 1#4 2#4) ∧ decode 0x25312000#32 = .ok (.or 3#4 1#4 2#4)
      ∧ decode 0x26312000#32 = .ok (.nor 3#4 1#4 2#4) ∧ decode 0x27312000#32 = .ok (.xnor 3#4 1#4 2#4)
      ∧ decode 0x28310000#32 = .ok (.passnota 3#4 1#4) ∧ decode 0x29312000#32 = .ok (.ornotb 3#4 1#4 2#4)
      ∧ decode 0x2A312000#32 = .ok (.nand 3#4 1#4 2#4) ∧ decode 0x2B300000#32 = .ok (.ones 3#4) := by decide

theorem test_decode_alu_arithmetic :
    decode 0x2C312000#32 = .ok (.add 3#4 1#4 2#4) ∧ decode 0x2D312000#32 = .ok (.addinc 3#4 1#4 2#4)
      ∧ decode 0x2E310000#32 = .ok (.inca 3#4 1#4) ∧ decode 0x2F312000#32 = .ok (.subdec 3#4 1#4 2#4)
      ∧ decode 0x30312000#32 = .ok (.sub 3#4 1#4 2#4) ∧ decode 0x31310000#32 = .ok (.deca 3#4 1#4)
      ∧ decode 0x32310000#32 = .ok (.lsl 3#4 1#4) ∧ decode 0x33310000#32 = .ok (.lsr 3#4 1#4)
      ∧ decode 0x34310000#32 = .ok (.asr 3#4 1#4) ∧ decode 0x35310000#32 = .ok (.asl 3#4 1#4) := by decide

/-- 95_test_vectors.md 2.4: the words of the conditional jumps. -/
theorem test_decode_conditional_jumps :
    decode 0xA0000040#32 = .ok (.jfNeg 0x40#32) ∧ decode 0xA8000040#32 = .ok (.jtNeg 0x40#32)
      ∧ decode 0xA0100040#32 = .ok (.jfZero 0x40#32) ∧ decode 0xA8100040#32 = .ok (.jtZero 0x40#32)
      ∧ decode 0xA0200040#32 = .ok (.jfCarry 0x40#32) ∧ decode 0xA8200040#32 = .ok (.jtCarry 0x40#32)
      ∧ decode 0xA0300040#32 = .ok (.jfNegzero 0x40#32) ∧ decode 0xA8300040#32 = .ok (.jtNegzero 0x40#32)
      ∧ decode 0xA0400040#32 = .ok (.jfTrue 0x40#32) ∧ decode 0xA8400040#32 = .ok (.jtTrue 0x40#32)
      ∧ decode 0xA0500040#32 = .ok (.jfOverflow 0x40#32) ∧ decode 0xA8500040#32 = .ok (.jtOverflow 0x40#32) := by
  decide

/-- 95_test_vectors.md 2.1 and 2.2. -/
theorem test_decode_memory_constants :
    decode 0x54450000#32 = .ok (.load 4#4 5#4) ∧ decode 0x56056000#32 = .ok (.store 5#4 6#4)
      ∧ decode 0x6010FFFF#32 = .ok (.loadlit 1#4 0xFFFFFFFF#32) ∧ decode 0x60107FFF#32 = .ok (.loadlit 1#4 0x7FFF#32)
      ∧ decode 0x802000FF#32 = .ok (.lcl 2#4 0xFF#8) ∧ decode 0x902000FF#32 = .ok (.lch 2#4 0xFF#8) := by decide

/-- 95_test_vectors.md 2.6: every illegal word, refused under the clause the vector gives. -/
theorem test_decode_illegal :
    decode 0x00000001#32 = .error .notNopWord ∧ decode 0x36000000#32 = .error .unassignedAluop
      ∧ decode 0x3F000000#32 = .error .unassignedAluop ∧ decode 0x2C312001#32 = .error .mustBeZero
      ∧ decode 0x20310000#32 = .error .mustBeZero ∧ decode 0x23312000#32 = .error .mustBeZero
      ∧ decode 0x40000000#32 = .error .unassignedMemop ∧ decode 0x55450000#32 = .error .unassignedMemop
      ∧ decode 0x54451000#32 = .error .mustBeZero ∧ decode 0x56156000#32 = .error .mustBeZero
      ∧ decode 0x60110000#32 = .error .mustBeZero ∧ decode 0x61100005#32 = .error .mustBeZero := by decide

theorem test_decode_illegal_more :
    decode 0x80201000#32 = .error .mustBeZero ∧ decode 0x88200034#32 = .error .mustBeZero
      ∧ decode 0xA0600002#32 = .error .unassignedCond ∧ decode 0xA1100002#32 = .error .mustBeZero
      ∧ decode 0xB1000006#32 = .error .mustBeZero ∧ decode 0xB8007001#32 = .error .mustBeZero
      ∧ decode 0xBA007000#32 = .error .mustBeZero ∧ decode 0xB8107000#32 = .error .mustBeZero
      ∧ decode 0xC0000000#32 = .error .reservedGroup ∧ decode 0xE0000000#32 = .error .reservedGroup
      ∧ decode 0xFFFFFFFF#32 = .error .reservedGroup := by decide

/-- A table word, and the same instruction placed and run as the first after reset. -/
theorem test_decodeTableWord : decodeTableWord 32 0x6010FFFF = some (.loadlit 1#4 0xFFFFFFFF#32)
    ∧ decodeTableWord 32 0xC0000000 = none := by decide

theorem test_withFetchWord : regAfter (step (State.reset.withFetchWord 32 0x6010FFFF)) 1#4 = some 0xFFFFFFFF#32
    ∧ pcAfter (step (State.reset.withFetchWord 32 0x6010FFFF)) = some 1#32 := by decide

/-! ## One step of each instruction (95_test_vectors.md 2.1 to 2.5) -/

/-- r5 = 0x10 and D[0x10] = 0xCAFEBABE. -/
def loadStart : State := placeData (withReg 5#4 0x10#32) [(0x10#32, 0xCAFEBABE#32)]

theorem test_load : regAfter (exec (.load 4#4 5#4) loadStart) 4#4 = some 0xCAFEBABE#32
    ∧ regAfter (exec (.load 5#4 5#4) loadStart) 5#4 = some 0xCAFEBABE#32
    ∧ regAfter (exec (.load 0#4 5#4) loadStart) 0#4 = some 0#32 := by decide

theorem test_load_out_of_range :
    faultOf (exec (.load 4#4 5#4) (withReg 5#4 0x1000#32)) = some (.dataOutOfRange 0x1000#32) := by decide

theorem test_store : dataAfter (exec (.store 5#4 6#4) (writeReg loadStart 6#4 0xA5A5A5A5#32)) 0x10 = some 0xA5A5A5A5#32
    ∧ dataAfter (exec (.store 5#4 5#4) loadStart) 0x10 = some 0x10#32 := by decide

theorem test_store_out_of_range : faultOf (exec (.store 5#4 6#4) (withReg 5#4 0xFFFFFFFF#32))
    = some (.dataOutOfRange 0xFFFFFFFF#32) := by decide

/-- 95_test_vectors.md 2.1, byte view: 0x11223344 stands as 11 22 33 44. -/
theorem test_store_big_endian : (match exec (.store 5#4 6#4) (writeReg loadStart 6#4 0x11223344#32) with
    | .next t => t.dmem
    | _ => []) = [(0x40, 0x11#8), (0x41, 0x22#8), (0x42, 0x33#8), (0x43, 0x44#8)] := by decide

theorem test_loadlit : regAfter (exec (.loadlit 1#4 0xFFFF8000#32) State.reset) 1#4 = some 0xFFFF8000#32
    ∧ regAfter (exec (.loadlit 0#4 5#32) State.reset) 0#4 = some 0#32 := by decide

theorem test_lcl : regAfter (exec (.lcl 2#4 0x34#8) (withReg 2#4 0xABCD5678#32)) 2#4 = some 0x00005634#32
    ∧ regAfter (exec (.lcl 2#4 0xFF#8) State.reset) 2#4 = some 0x000000FF#32 := by decide

theorem test_lch : regAfter (exec (.lch 2#4 0x12#8) (withReg 2#4 0xABCD5678#32)) 2#4 = some 0x00001278#32
    ∧ regAfter (exec (.lch 2#4 0xFF#8) State.reset) 2#4 = some 0x0000FF00#32 := by decide

theorem test_zeros : r3Flags (exec (.zeros 3#4) (setFlags aluStart (nzcv true false true true)))
    = some (0#32, nzcv true true true true) := by decide

theorem test_and : r3Flags (exec (.and 3#4 1#4 2#4) (setFlags aluStart (nzcv false false true true)))
    = some (0xF000F000#32, nzcv true false true true) := by decide

theorem test_andnota : r3Flags (exec (.andnota 3#4 1#4 2#4) aluStart)
    = some (0x0F000F00#32, nzcv false false false false) := by decide

theorem test_passa : r3Flags (exec (.passa 3#4 1#4) aluStart)
    = some (0xF0F0F0F0#32, nzcv true false false false) := by decide

theorem test_xor : r3Flags (exec (.xor 3#4 1#4 2#4) aluStart)
    = some (0x0FF00FF0#32, nzcv false false false false) := by decide

theorem test_or : r3Flags (exec (.or 3#4 1#4 2#4) aluStart)
    = some (0xFFF0FFF0#32, nzcv true false false false) := by decide

theorem test_nor : r3Flags (exec (.nor 3#4 1#4 2#4) aluStart)
    = some (0x000F000F#32, nzcv false false false false) := by decide

theorem test_xnor : r3Flags (exec (.xnor 3#4 1#4 2#4) aluStart)
    = some (0xF00FF00F#32, nzcv true false false false) := by decide

theorem test_passnota : r3Flags (exec (.passnota 3#4 1#4) aluStart)
    = some (0x0F0F0F0F#32, nzcv false false false false) := by decide

theorem test_passnota_r0 : r3Flags (exec (.passnota 3#4 0#4) aluStart)
    = some (0xFFFFFFFF#32, nzcv true false false false) := by decide

theorem test_ornotb : r3Flags (exec (.ornotb 3#4 1#4 2#4) aluStart)
    = some (0xF0FFF0FF#32, nzcv true false false false) := by decide

theorem test_nand : r3Flags (exec (.nand 3#4 1#4 2#4) aluStart)
    = some (0x0FFF0FFF#32, nzcv false false false false) := by decide

theorem test_ones : r3Flags (exec (.ones 3#4) (setFlags aluStart (nzcv true true false true)))
    = some (1#32, nzcv true true false true) := by decide

theorem test_add : r3Flags (exec (.add 3#4 1#4 2#4) aluStart) = some (0xEFF1EFF0#32, nzcv true false true false) := by
  decide

theorem test_add_overflow : r3Flags (exec (.add 3#4 1#4 2#4) (withR1R2 0x80000000#32 0x80000000#32))
    = some (0#32, nzcv false true true true) := by decide

theorem test_addinc : r3Flags (exec (.addinc 3#4 1#4 2#4) aluStart)
    = some (0xEFF1EFF1#32, nzcv true false true false) := by decide

theorem test_addinc_wraps : r3Flags (exec (.addinc 3#4 1#4 2#4) (withR1R2 0xFFFFFFFF#32 0xFFFFFFFF#32))
    = some (0xFFFFFFFF#32, nzcv true false true false) := by decide

theorem test_inca : r3Flags (exec (.inca 3#4 1#4) (withR1R2 0x7FFFFFFF#32 0#32))
    = some (0x80000000#32, nzcv true false false true) := by decide

theorem test_inca_wraps : r3Flags (exec (.inca 3#4 1#4) (withR1R2 0xFFFFFFFF#32 0#32))
    = some (0#32, nzcv false true true false) := by decide

theorem test_subdec : r3Flags (exec (.subdec 3#4 1#4 2#4) (withR1R2 0x80000000#32 0#32))
    = some (0x7FFFFFFF#32, nzcv false false true true) := by decide

theorem test_subdec_equal : r3Flags (exec (.subdec 3#4 1#4 2#4) (withR1R2 0#32 0#32))
    = some (0xFFFFFFFF#32, nzcv true false false false) := by decide

theorem test_sub : r3Flags (exec (.sub 3#4 1#4 2#4) (withR1R2 0#32 0x80000000#32))
    = some (0x80000000#32, nzcv true false false true) := by decide

theorem test_sub_to_r0 : flagsAfter (exec (.sub 0#4 1#4 2#4) (withR1R2 5#32 5#32)) = some (nzcv false true true false)
    ∧ regAfter (exec (.sub 0#4 1#4 2#4) (withR1R2 5#32 5#32)) 0#4 = some 0#32 := by decide

theorem test_deca : r3Flags (exec (.deca 3#4 1#4) (withR1R2 0#32 0#32))
    = some (0xFFFFFFFF#32, nzcv true false false false) := by decide

theorem test_deca_overflow : r3Flags (exec (.deca 3#4 1#4) (withR1R2 0x80000000#32 0#32))
    = some (0x7FFFFFFF#32, nzcv false false true true) := by decide

theorem test_lsl : r3Flags (exec (.lsl 3#4 1#4) (setFlags (withR1R2 0x80000001#32 0#32) (nzcv true true false true)))
    = some (2#32, nzcv false false true true) := by decide

theorem test_lsr : r3Flags (exec (.lsr 3#4 1#4) (setFlags aluStart (nzcv true true true true)))
    = some (0x78787878#32, nzcv false false true true) := by decide

theorem test_asr : r3Flags (exec (.asr 3#4 1#4) (withR1R2 0x80000001#32 0#32))
    = some (0xC0000000#32, nzcv true false false false) := by decide

theorem test_asl : r3Flags (exec (.asl 3#4 1#4) (withR1R2 0x40000001#32 0#32))
    = some (0x80000002#32, flagsAfterAsl) := by decide

/-- The pc after a jump at address 3, for the five flag settings 0000, 1000, 0100, 0010, 0001 of 95_test_vectors.md 2.4. -/
def jumpRow (i : Instr) : List (Option Word) :=
  [nzcv false false false false, nzcv true false false false, nzcv false true false false, nzcv false false true false,
    nzcv false false false true].map fun f => pcAfter (exec i (setFlags (setPc State.reset 3#32) f))

theorem test_jfNeg : jumpRow (.jfNeg 0x40#32) = [some 0x40#32, some 4#32, some 0x40#32, some 0x40#32, some 0x40#32] := by
  decide
theorem test_jtNeg : jumpRow (.jtNeg 0x40#32) = [some 4#32, some 0x40#32, some 4#32, some 4#32, some 4#32] := by decide
theorem test_jfZero : jumpRow (.jfZero 0x40#32) = [some 0x40#32, some 0x40#32, some 4#32, some 0x40#32, some 0x40#32] := by
  decide
theorem test_jtZero : jumpRow (.jtZero 0x40#32) = [some 4#32, some 4#32, some 0x40#32, some 4#32, some 4#32] := by decide
theorem test_jfCarry : jumpRow (.jfCarry 0x40#32)
    = [some 0x40#32, some 0x40#32, some 0x40#32, some 4#32, some 0x40#32] := by decide
theorem test_jtCarry : jumpRow (.jtCarry 0x40#32) = [some 4#32, some 4#32, some 4#32, some 0x40#32, some 4#32] := by
  decide
theorem test_jfNegzero : jumpRow (.jfNegzero 0x40#32)
    = [some 0x40#32, some 4#32, some 4#32, some 0x40#32, some 0x40#32] := by decide
theorem test_jtNegzero : jumpRow (.jtNegzero 0x40#32) = [some 4#32, some 0x40#32, some 0x40#32, some 4#32, some 4#32] := by
  decide
theorem test_jfTrue : jumpRow (.jfTrue 0x40#32) = [some 4#32, some 4#32, some 0x40#32, some 4#32, some 4#32] := by decide
theorem test_jtTrue : jumpRow (.jtTrue 0x40#32) = [some 0x40#32, some 0x40#32, some 4#32, some 0x40#32, some 0x40#32] := by
  decide
theorem test_jfOverflow : jumpRow (.jfOverflow 0x40#32)
    = [some 0x40#32, some 0x40#32, some 0x40#32, some 0x40#32, some 4#32] := by decide
theorem test_jtOverflow : jumpRow (.jtOverflow 0x40#32) = [some 4#32, some 4#32, some 4#32, some 4#32, some 0x40#32] := by
  decide

theorem test_j : pcAfter (exec (.j 0xFFFFFF#32) (setPc State.reset 3#32)) = some 0xFFFFFF#32 := by decide

theorem test_jal : pcAfter (exec (.jal 7#4) (setPc (withReg 7#4 0x100#32) 0x20#32)) = some 0x100#32
    ∧ regAfter (exec (.jal 7#4) (setPc (withReg 7#4 0x100#32) 0x20#32)) 15#4 = some 0x21#32 := by decide

theorem test_jal_r15 : pcAfter (exec (.jal 15#4) (setPc (withReg 15#4 0x20#32) 3#32)) = some 0x20#32
    ∧ regAfter (exec (.jal 15#4) (setPc (withReg 15#4 0x20#32) 3#32)) 15#4 = some 4#32 := by decide

theorem test_jr : pcAfter (exec (.jr 7#4) (setPc (withReg 7#4 0x12345678#32) 3#32)) = some 0x12345678#32
    ∧ pcAfter (exec (.jr 0#4) (setPc State.reset 3#32)) = some 0#32 := by decide

/-- 10_state.md R25: the pc wraps at the top of the address space. -/
theorem test_nop : pcAfter (exec .nop (setPc State.reset 3#32)) = some 4#32
    ∧ pcAfter (exec .nop (setPc State.reset 0xFFFFFFFF#32)) = some 0#32 := by decide

/-! ## Faulting runs F1 to F3 and the HALT idiom (95_test_vectors.md 3, L1), at the step that matters -/

/-- A run of an image on memories of the given sizes, with nothing else given. -/
def runOf (imemWords dmemWords : Nat) (words : List Word) : RunStart :=
  { imemWords := imemWords, dmemWords := dmemWords, r0Zero := Config.r0Zero, image := words, data := [],
    registers := [], flags := [] }

/-- A start state with an image and memories of 0x1000 words. -/
def image (words : List Word) : State := (runOf 0x1000 0x1000 words).state

theorem test_fault_illegal : faultOf (step (setPc (image [0x60100001#32, 0xC0000000#32, 0xB0000002#32]) 1#32))
    = some (.illegalEncoding 1#32 0xC0000000#32) := by decide

theorem test_fault_fetch : faultOf (step (setPc (runOf 1 0x1000 [0x60100001#32]).state 1#32))
    = some (.fetchOutOfRange 1#32) ∧ faultOf (step State.reset) = some (.fetchOutOfRange 0#32) := by decide

theorem test_fault_data : faultOf (step (setPc (writeReg (image [0x6010FFFF#32, 0x54210000#32]) 1#4 0xFFFFFFFF#32) 1#32))
    = some (.dataOutOfRange 0xFFFFFFFF#32) := by decide

/-- A program whose first word is HALT: `j 0` at address 0. -/
def haltStart : State := image [0xB0000000#32]

theorem test_halted : halted haltStart = true ∧ step haltStart = .next haltStart := ⟨by decide, rfl⟩

theorem test_not_halted : halted (image [0xB0000001#32]) = false := by decide

/-! ## Witnesses: the hypotheses of each statement can be met, each clause at a boundary of its range -/

/-- Data address 0xFFF, the last implemented one, in r1; r2 holds 7; the word there is 0x12345678. -/
def edge : State := placeData (withR1R2 0xFFF#32 7#32) [(0xFFF#32, 0x12345678#32)]

/-- The first address that is not implemented in r1. -/
def beyond : State := withR1R2 0x1000#32 7#32

/-- The state after an outcome, reset where there is none. -/
def stateAfter (o : Result) : State :=
  match o with
  | .next t => t
  | _ => State.reset

theorem test_witness_DecodeOfEncode : (Instr.jtOverflow 0xFFFFF#32).wf = true ∧ (Instr.j 0xFFFFFF#32).wf = true
    ∧ (Instr.loadlit 15#4 0xFFFF8000#32).wf = true ∧ (Instr.add 3#4 1#4 2#4).wf = true := by decide

theorem test_witness_EncodeOfDecode : decode 0xA85FFFFF#32 = .ok (.jtOverflow 0xFFFFF#32)
    ∧ decode 0x60F08000#32 = .ok (.loadlit 15#4 0xFFFF8000#32) := by decide

theorem test_witness_DecodeAgreesWithOpcodeTable : rowOf (.sub 0#4 0#4 0#4) ∈ opcodeTable
    ∧ (rowOf (.sub 0#4 0#4 0#4)).isMatch 0x30FFF000#32 = true
    ∧ (rowOf (.sub 0#4 0#4 0#4)).isMatch 0x30FFF001#32 = false := by decide

theorem test_witness_StepRunsTheDecodedInstruction : haltStart.pc.toNat < haltStart.imemWords
    ∧ readByte haltStart.imem (4 * haltStart.pc.toNat) = some 0xB0#8
    ∧ readByte haltStart.imem (4 * haltStart.pc.toNat + 1) = some 0#8
    ∧ readByte haltStart.imem (4 * haltStart.pc.toNat + 2) = some 0#8
    ∧ readByte haltStart.imem (4 * haltStart.pc.toNat + 3) = some 0#8
    ∧ decodeBytes [0xB0#8, 0#8, 0#8, 0#8] = .ok (.j 0#32) := by decide

/-- The pc at IMEM_WORDS; the pc at IMEM_WORDS - 1 with no word there. -/
theorem test_witness_StepFaults_fetch : (setPc State.reset 0x1000#32).imemWords ≤ (setPc State.reset 0x1000#32).pc.toNat
    ∧ readWord (setPc State.reset 0xFFF#32).imem (setPc State.reset 0xFFF#32).pc.toNat = none
    ∧ faultOf (step (setPc State.reset 0xFFF#32)) = some (.fetchOutOfRange 0xFFF#32) := by decide

theorem test_witness_StepFaults_illegal :
    isIllegalWord 0x2C312001#32 ∧ readWord (image [0x2C312001#32]).imem 0 = some 0x2C312001#32 :=
  ⟨by simp [isIllegalWord, mustBeZeroBits], by decide⟩

theorem test_illegal_boundaries : (isIllegalWord 0x36000000#32 ∧ ¬isIllegalWord 0x35000000#32)
    ∧ (isIllegalWord 0xA0600000#32 ∧ ¬isIllegalWord 0xA0500000#32) := by
  simp [isIllegalWord, mustBeZeroBits]

/-- `load r3,r1` and `store r1,r2` at the first address that is not implemented, and at the last one that is. -/
theorem test_witness_StepFaults_data : beyond.dmemWords ≤ (readReg beyond 1#4).toNat
    ∧ decode 0x54310000#32 = .ok (.load 3#4 1#4) ∧ decode 0x56012000#32 = .ok (.store 1#4 2#4)
    ∧ faultOf (step (loadImage beyond [0x54310000#32])) = some (.dataOutOfRange 0x1000#32)
    ∧ faultOf (step (loadImage beyond [0x56012000#32])) = some (.dataOutOfRange 0x1000#32)
    ∧ faultOf (step (loadImage edge [0x56012000#32])) = none := by decide

theorem test_witness_LoadReadsTheAddressedWord : (readReg edge 1#4).toNat < edge.dmemWords
    ∧ readWord edge.dmem (readReg edge 1#4).toNat = some 0x12345678#32
    ∧ readWord (withReg 1#4 0xFFF#32).dmem (readReg (withReg 1#4 0xFFF#32) 1#4).toNat = none
    ∧ beyond.dmemWords ≤ (readReg beyond 1#4).toNat := by decide

/-- A load of a word that was never written completes and draws once (95_test_vectors.md 2.1). -/
theorem test_load_unwritten_completes : pcAfter (exec (.load 4#4 1#4) (withReg 1#4 0x11#32)) = some 1#32
    ∧ (stateAfter (exec (.load 4#4 1#4) (withReg 1#4 0x11#32))).draws = 1 := by decide

theorem test_witness_StoreWritesTheAddressedWord : (readReg edge 1#4).toNat < edge.dmemWords
    ∧ dataAfter (exec (.store 1#4 2#4) edge) 0xFFF = some 7#32 ∧ beyond.dmemWords ≤ (readReg beyond 1#4).toNat := by
  decide

theorem test_witness_AddressIsTheWholeBaseRegister : isHardwired edge 3#4 = false ∧ (readReg edge 1#4).toNat < edge.dmemWords
    ∧ readWord edge.dmem (readReg edge 1#4).toNat = some 0x12345678#32
    ∧ regAfter (exec (.load 3#4 1#4) edge) 3#4 = some 0x12345678#32
    ∧ regAfter (exec (.load 3#4 1#4) edge) 1#4 = some 0xFFF#32 ∧ dataAfter (exec (.store 1#4 2#4) edge) 0xFFF = some 7#32 := by
  decide

theorem test_witness_MemoryReadsTheLatestWrite : (0xFFF#32 : Word).toNat < edge.dmemWords
    ∧ (0xFFE#32 : Word) ≠ 0xFFF#32 ∧ readWord edge.dmem (0xFFF#32 : Word).toNat = some 0x12345678#32
    ∧ readWord edge.dmem (0xFFE#32 : Word).toNat = none ∧ edge.dmemWords ≤ (0x1000#32 : Word).toNat := by decide

/-- A store, then passa of the address to another register, then the load. -/
theorem test_witness_LoadAfterStore : ∃ t u, exec (.store 1#4 2#4) edge = .next t ∧ exec (.passa 4#4 1#4) t = .next u
    ∧ isStore (.passa 4#4 1#4) = false ∧ readReg u 4#4 = readReg edge 1#4 :=
  ⟨_, _, rfl, rfl, by decide, by decide⟩

theorem test_witness_StoredWordIsBigEndian : ∃ t, exec (.store 1#4 2#4) edge = .next t ∧ (0 : Nat) < 4 ∧ (3 : Nat) < 4 :=
  ⟨_, rfl, by decide, by decide⟩

theorem test_witness_LclAndLch : ¬isZeroRegister edge 1#4 ∧ ¬isZeroRegister (State.resetWith 1 1 false) 0#4 :=
  ⟨fun h => absurd h.2 (by decide), fun h => absurd h.1 (by decide)⟩

theorem test_witness_SubtractToRegisterZeroCompares : edge.r0Zero = true := by decide

theorem test_witness_JumpsCompleteAfterArithmeticShiftLeft : ∃ t, exec (.asl 3#4 1#4) edge = .next t := ⟨_, rfl⟩

/-- A call, then a callee of one nop. -/
theorem test_witness_ReturnGoesBehindTheCall : ∃ t u, exec (.jal 7#4) edge = .next t ∧ exec .nop t = .next u
    ∧ readReg u 15#4 = readReg t 15#4 := ⟨_, _, rfl, rfl, rfl⟩

/-- HALT at address 0, and at the last address that has a HALT. -/
theorem test_witness_HaltNeverChangesTheState : haltStart.pc.toNat < 2 ^ 24
    ∧ fetch haltStart = .ok (0xB0000000#32 ||| haltStart.pc)
    ∧ (setPc State.reset 0xFFFFFF#32).pc.toNat < 2 ^ 24
    ∧ fetch (placeAtPc (setPc State.reset 0xFFFFFF#32) 0xB0FFFFFF#32) = .ok (0xB0000000#32 ||| 0xFFFFFF#32) :=
  ⟨by decide, by rfl, by decide, by rfl⟩

/-- `loadlit r1,5`, then HALT: the run ends in the second state. -/
theorem test_witness_RunsEndInOneHaltedState :
    endsIn (image [0x60100005#32, 0xB0000001#32]) (stateAfter (step (image [0x60100005#32, 0xB0000001#32])))
      ∧ faultOf (step State.reset) = some (.fetchOutOfRange 0#32) :=
  ⟨⟨1, by rfl, by decide⟩, by decide⟩

theorem test_witness_RegisterZeroIsHardwired : edge.r0Zero = true ∧ (State.resetWith 1 1 false).r0Zero = false
    ∧ registerOfResult (.ones 0#4) = some 0#4
    ∧ ∃ t, exec (.ones 0#4) edge = .next t := ⟨rfl, rfl, rfl, _, rfl⟩

theorem test_witness_RegistersAreReachedThroughFieldsOnly : (∃ t, exec (.jal 7#4) edge = .next t)
    ∧ registerOfResult (.jal 7#4) ≠ some 14#4 ∧ 14#4 ∉ registersRead (.jal 7#4) ∧ 3#4 ∉ registersRead (.add 3#4 1#4 2#4)
    ∧ registerOfResult (.add 3#4 1#4 2#4) = some 3#4 := ⟨⟨_, rfl⟩, by decide, by decide, by decide, by decide⟩

theorem test_witness_FlagsWrittenAreTheListedOnes : (∃ t, exec (.lsl 3#4 1#4) edge = .next t)
    ∧ FlagName.overflow ∉ flagsWritten (.lsl 3#4 1#4) ∧ FlagName.carry ∈ flagsWritten (.lsl 3#4 1#4)
    ∧ isAsl (.lsl 3#4 1#4) = false ∧ isAsl (.asl 3#4 1#4) = true ∧ ∃ t, exec (.asl 3#4 1#4) edge = .next t :=
  ⟨⟨_, rfl⟩, by decide, by decide, by decide, by decide, _, rfl⟩

theorem test_witness_OnlyConditionalJumpsReadFlags : readsFlags (.add 3#4 1#4 2#4) = false ∧ readsFlags (.j 0#32) = false
    ∧ readsFlags (.jfZero 0#32) = true ∧ readsFlags (.jtOverflow 0#32) = true
    ∧ flagsAfter (exec (.sub 0#4 1#4 1#4) edge) ≠ some edge.flags := by decide

theorem test_witness_OnlyStoreChangesDataMemory : isStore (.load 3#4 1#4) = false ∧ isStore (.store 1#4 2#4) = true
    ∧ pcAfter (exec (.load 3#4 1#4) edge) = some 1#32 := by decide

theorem test_witness_PcAdvancesByOneWord : isControlTransfer .nop = false ∧ isControlTransfer (.jr 0#4) = true
    ∧ isControlTransfer (.jfNeg 0#32) = true ∧ ∃ t, exec .nop (setPc edge 0xFFFFFFFF#32) = .next t :=
  ⟨by decide, by decide, by decide, _, rfl⟩

theorem test_witness_NoRunChangesTheProgram : Sys2Proof.core.run 2 haltStart = .next haltStart := by rfl

/-- A start state with the invariant, and a step from it: `store r0,r0` writes word 0. -/
theorem test_witness_EveryStepKeepsTheInvariant : Inv (runOf 1 1 [0x56000000#32]).state
    ∧ ∃ t, step (runOf 1 1 [0x56000000#32]).state = .next t :=
  ⟨⟨fun _ => by decide, by decide, by decide, by decide, by decide, by decide⟩, _, rfl⟩

theorem test_witness_ResetHasTheInvariant : 1 ≤ 1 ∧ 1 ≤ 2 ^ 32 ∧ 2 ^ 32 ≤ 2 ^ 32 := by decide

/-- A run whose image fills the instruction memory and whose data, registers and flags name one place twice; data word 3 is
the last implemented one. -/
def fullRun : RunStart :=
  { imemWords := 2, dmemWords := 4, r0Zero := true, image := [0#32, 0xB0000001#32],
    data := [(3#32, 7#32), (0#32, 5#32), (3#32, 9#32)], registers := [(2#4, 1#32), (0#4, 6#32), (2#4, 8#32)],
    flags := [(.carry, false), (.neg, true), (.carry, true)] }

theorem test_witness_StartOfRunHoldsTheImage : startOfRun fullRun = some fullRun.state
    ∧ (1#32 : Word).toNat < fullRun.image.length ∧ fullRun.image.length ≤ (2#32 : Word).toNat
    ∧ lastNamed fullRun.data 3#32 9#32 ∧ lastNamed fullRun.data 0#32 5#32 ∧ lastNamed fullRun.registers 2#4 8#32
    ∧ lastNamed fullRun.flags .carry true ∧ 1#4 ∉ fullRun.registers.map Prod.fst
    ∧ FlagName.zero ∉ fullRun.flags.map Prod.fst :=
  ⟨by rfl, by decide, by decide, ⟨[(3#32, 7#32), (0#32, 5#32)], [], rfl, by decide⟩,
    ⟨[(3#32, 7#32)], [(3#32, 9#32)], rfl, by decide⟩, ⟨[(2#4, 1#32), (0#4, 6#32)], [], rfl, by decide⟩,
    ⟨[(.carry, false), (.neg, true)], [], rfl, by decide⟩, by decide, by decide⟩

theorem test_startOfRun_values : readWord fullRun.state.dmem 3 = some 9#32 ∧ readWord fullRun.state.dmem 0 = some 5#32
    ∧ readWord fullRun.state.dmem 1 = none ∧ readReg fullRun.state 2#4 = 8#32 ∧ readReg fullRun.state 0#4 = 0#32
    ∧ fullRun.state.flags = nzcv true false true false := by decide

/-- No run: an image longer than IMEM_WORDS, a data word at DMEM_WORDS, a memory of no word. -/
theorem test_startOfRun_refused : startOfRun (runOf 1 1 [0#32, 0#32]) = none
    ∧ startOfRun { fullRun with dmemWords := 3 } = none ∧ startOfRun (runOf 0 1 []) = none := by decide

theorem test_witness_EveryStartOfRunHasTheInvariant : startOfRun (runOf (2 ^ 32) (2 ^ 32) []) =
    some (runOf (2 ^ 32) (2 ^ 32) []).state := by rfl

theorem test_witness_TakenJumps : conditionHolds State.reset .zero = false ∧ conditionHolds State.reset .true = true := by
  decide

/-! ## The parameters of 00_scope.md R11 -/

theorem test_parameters : Config.r0Zero = true ∧ Config.addrUnitBytes = 4 ∧ Config.memUnified = false
    ∧ Config.pcBits = 32 ∧ Config.resetPc = 0#32 ∧ Config.loadlitBits = 16 ∧ Config.destBitsI = 20
    ∧ Config.destBitsII = 24 ∧ Config.linkReg = 15#4 ∧ Config.shiftAmount = 1 ∧ Config.nopWord = 0#32
    ∧ Config.branchDelaySlots = 0 ∧ Config.aslFlags .carry = .unspecified := by decide

/-- With `R0_ZERO` false, r0 is written and read as any register (92_eei_decisions.md D2). -/
theorem test_r0_ordinary : regAfter (exec (.loadlit 0#4 5#32) (State.resetWith 1 1 false)) 0#4 = some 5#32
    ∧ regAfter (exec (.loadlit 0#4 5#32) (State.resetWith 1 1 true)) 0#4 = some 0#32 := by decide

end Sys2Proof.Tests
end

section
/-! PROOFS. Memory access: what load and store do in terms of the state's operations, and the effective address. -/

namespace Sys2Proof.Machine

open Sys2Proof.Claims

/-- The statements' zero register is the model's hardwired register (10_state.md R22). -/
theorem isHardwired_eq_false_iff {s : State} {r : Reg} : isHardwired s r = false ↔ ¬isZeroRegister s r := by
  rw [isZeroRegister, ← isHardwired_iff, Bool.not_eq_true]

theorem exec_load (c a : Reg) (s : State) : exec (.load c a) s = execLoad c a s := rfl

theorem exec_store (a b : Reg) (s : State) : exec (.store a b) s = execStore a b s := rfl

/-- A load of an implemented, written word: only register `c` and the pc change (40_memory_access.md R90, R92). -/
theorem exec_load_written {c a : Reg} {s : State} {v : Word} (hi : (readReg s a).toNat < s.dmemWords)
    (hw : readWord s.dmem (readReg s a).toNat = some v) :
    exec (.load c a) s = .next (advance (writeReg s c v)) := by
  have hread : memRead s (dataAddress s a) = .ok (v, s) := memRead_listed hi hw
  rw [exec_load, execLoad, hread]

/-- A store completes exactly at an implemented address, and only the word there and the pc change
(40_memory_access.md R91, R92). -/
theorem exec_store_next {a b : Reg} {s t : State} : exec (.store a b) s = .next t ↔
    (readReg s a).toNat < s.dmemWords
      ∧ t = advance (setDmem s (writeWord s.dmem (readReg s a).toNat (readReg s b))) := by
  rw [exec_store, execStore, dataAddress]
  cases hwrite : memWrite s (readReg s a) (readReg s b) with
  | ok u =>
    obtain ⟨hi, rfl⟩ := memWrite_ok hwrite
    simp [hi, eq_comm]
  | error f =>
    obtain ⟨hge, -⟩ := memWrite_error hwrite
    simp [Nat.not_lt.mpr hge]

/-- Settles O11: a load is one read at `x[a]` and one write of `c`, a store one write at `x[a]` and of no register. -/
theorem addressIsTheWholeBaseRegister : Obligations.AddressIsTheWholeBaseRegister := by
  constructor
  · intro c a s v t hi hw hexec
    rw [exec_load_written hi hw] at hexec
    cases hexec
    exact ⟨fun hz => readReg_writeReg_same s v (isHardwired_eq_false_iff.mpr hz),
      fun hca => readReg_writeReg_other s v hca.symm⟩
  · intro a b s t hexec
    obtain ⟨-, rfl⟩ := exec_store_next.mp hexec
    exact ⟨readWord_writeWord_same s.dmem (readReg s a).toNat (readReg s b), by simp⟩

end Sys2Proof.Machine
end

section
/-! PROOFS. The decoder and the encoder are inverse to each other: a word decodes to a well-formed instruction exactly when
it is that instruction's encoding (30_encoding.md R76, R79). -/

namespace Sys2Proof.Laws

/-! ## What the parts of the decoder answer -/

theorem requireZero_eq_ok {z : Bool} {i j : Instr} : requireZero z i = .ok j ↔ z = true ∧ i = j := by
  cases z <;> simp [requireZero]

theorem decodeC_eq_ok {w : Word} {mk : Reg → Instr} {i : Instr} : decodeC w mk = .ok i ↔
    (fieldA w = 0#4 ∧ fieldB w = 0#4 ∧ fieldLow w = 0#12) ∧ mk (fieldC w) = i := by
  simp [decodeC, requireZero_eq_ok, and_assoc]

theorem decodeCA_eq_ok {w : Word} {mk : Reg → Reg → Instr} {i : Instr} : decodeCA w mk = .ok i ↔
    (fieldB w = 0#4 ∧ fieldLow w = 0#12) ∧ mk (fieldC w) (fieldA w) = i := by
  simp [decodeCA, requireZero_eq_ok]

theorem decodeCAB_eq_ok {w : Word} {mk : Reg → Reg → Reg → Instr} {i : Instr} : decodeCAB w mk = .ok i ↔
    fieldLow w = 0#12 ∧ mk (fieldC w) (fieldA w) (fieldB w) = i := by
  simp [decodeCAB, requireZero_eq_ok]

theorem decodeAB_eq_ok {w : Word} {mk : Reg → Reg → Instr} {i : Instr} : decodeAB w mk = .ok i ↔
    (fieldC w = 0#4 ∧ fieldLow w = 0#12) ∧ mk (fieldA w) (fieldB w) = i := by
  simp [decodeAB, requireZero_eq_ok]

theorem decodeLoadlit_eq_ok {w : Word} {i : Instr} : decodeLoadlit w = .ok i ↔
    (fieldOp w = 0#5 ∧ fieldA w = 0#4) ∧ .loadlit (fieldC w) (signExtend16 (fieldConst w)) = i := by
  simp [decodeLoadlit, requireZero_eq_ok]

theorem decodeHalf_eq_ok {w : Word} {i : Instr} : decodeHalf w = .ok i ↔
    (fieldHalfHigh w = 0#4 ∧ fieldHalfMid w = 0#12)
      ∧ (if fieldHalfR w = 1#1 then .lch (fieldC w) (fieldConst8 w) else .lcl (fieldC w) (fieldConst8 w)) = i := by
  simp [decodeHalf, requireZero_eq_ok]

theorem decodeRegisterJump_eq_ok {w : Word} {i : Instr} : decodeRegisterJump w = .ok i ↔
    (fieldJumpMid w = 0#10 ∧ fieldLow w = 0#12)
      ∧ (if fieldJumpR w = 1#1 then .jr (fieldB w) else .jal (fieldB w)) = i := by
  simp [decodeRegisterJump, requireZero_eq_ok]

theorem decodeCondJump_eq_ok {w : Word} {mk : Cond → Word → Instr} {i : Instr} : decodeCondJump w mk = .ok i ↔
    ∃ cond, encodeCond cond = fieldCond w ∧ fieldJumpHigh w = 0#3 ∧ mk cond (zeroExtend20 (fieldDestino20 w)) = i := by
  simp only [← decodeCond_eq_some, decodeCondJump]
  cases decodeCond (fieldCond w) <;> simp [requireZero_eq_ok]

/-! ## The fields of a word, encoded again, are the word -/

theorem encodeA_fields {w : Word} (hgrp : fieldGrp w = 1#3) (hlow : fieldLow w = 0#12) :
    encodeA (fieldOp w) (fieldC w) (fieldA w) (fieldB w) = w := by
  simpa [encodeA, hgrp, hlow] using word_of_register_fields w

theorem encodeM_fields {w : Word} (hgrp : fieldGrp w = 2#3) (hlow : fieldLow w = 0#12) :
    encodeM (fieldOp w) (fieldC w) (fieldA w) (fieldB w) = w := by
  simpa [encodeM, hgrp, hlow] using word_of_register_fields w

theorem encodeKI_fields {w : Word} (hgrp : fieldGrp w = 3#3) (hop : fieldOp w = 0#5) (ha : fieldA w = 0#4) :
    encodeKI (fieldC w) (fieldConst w) = w := by
  simpa [encodeKI, hgrp, hop, ha] using word_of_constant_fields w

theorem encodeKII_fields {w : Word} (hgrp : fieldGrp w = 4#3) (hhigh : fieldHalfHigh w = 0#4)
    (hmid : fieldHalfMid w = 0#12) : encodeKII (fieldHalfR w) (fieldC w) (fieldConst8 w) = w := by
  simpa [encodeKII, hgrp, hhigh, hmid] using word_of_half_fields w

theorem encodeJI_fields {w : Word} {cond : Cond} (hgrp : fieldGrp w = 5#3) (hcond : encodeCond cond = fieldCond w)
    (hhigh : fieldJumpHigh w = 0#3) : encodeJI (fieldJop w) cond (zeroExtend20 (fieldDestino20 w)) = w := by
  simpa [encodeJI, hgrp, hcond, hhigh, zeroExtend20_eq] using word_of_jump20_fields w

theorem encodeJII_fields {w : Word} (hgrp : fieldGrp w = 5#3) (hjop : fieldJop w = 2#2)
    (hhigh : fieldJumpHigh w = 0#3) : encodeJII (zeroExtend24 (fieldDestino24 w)) = w := by
  simpa [encodeJII, hgrp, hjop, hhigh, zeroExtend24_eq] using word_of_jump24_fields w

theorem encodeJR_fields {w : Word} (hgrp : fieldGrp w = 5#3) (hjop : fieldJop w = 3#2) (hmid : fieldJumpMid w = 0#10)
    (hlow : fieldLow w = 0#12) : encodeJR (fieldJumpR w) (fieldB w) = w := by
  simpa [encodeJR, hgrp, hjop, hmid, hlow] using word_of_register_jump_fields w

/-! ## Encoding what a word decodes to gives the word -/

theorem encode_of_decodeAlu {w : Word} {i : Instr} (hgrp : fieldGrp w = 1#3) (h : decodeAlu w = .ok i) :
    encode i = w := by
  -- the codes with the operand `c` alone, those with `c` and `a`, and all others (R63, R73)
  unfold decodeAlu at h
  split at h
  case h_23 => cases h
  case h_1 hop | h_12 hop =>
    obtain ⟨⟨ha, hb, hlow⟩, rfl⟩ := decodeC_eq_ok.mp h
    simpa [encode, hop, ha, hb] using encodeA_fields hgrp hlow
  case h_4 hop | h_9 hop | h_15 hop | h_18 hop | h_19 hop | h_20 hop | h_21 hop | h_22 hop =>
    obtain ⟨⟨hb, hlow⟩, rfl⟩ := decodeCA_eq_ok.mp h
    simpa [encode, hop, hb] using encodeA_fields hgrp hlow
  all_goals
    rename_i hop
    obtain ⟨hlow, rfl⟩ := decodeCAB_eq_ok.mp h
    simpa [encode, hop] using encodeA_fields hgrp hlow

theorem encode_of_decodeMemory {w : Word} {i : Instr} (hgrp : fieldGrp w = 2#3) (h : decodeMemory w = .ok i) :
    encode i = w := by
  unfold decodeMemory at h
  split at h
  next hop =>
    obtain ⟨⟨hb, hlow⟩, rfl⟩ := decodeCA_eq_ok.mp h
    simpa [encode, hop, hb] using encodeM_fields hgrp hlow
  next hop =>
    obtain ⟨⟨hc, hlow⟩, rfl⟩ := decodeAB_eq_ok.mp h
    simpa [encode, hop, hc] using encodeM_fields hgrp hlow
  next => cases h

theorem setWidth16_signExtend16 (k : BitVec 16) : (signExtend16 k).setWidth 16 = k := by
  rw [signExtend16_eq]
  refine BitVec.eq_of_getLsbD_eq fun i hi => ?_
  simp [BitVec.getElem_signExtend, hi, show i < 32 by omega]

theorem encode_of_decodeLoadlit {w : Word} {i : Instr} (hgrp : fieldGrp w = 3#3) (h : decodeLoadlit w = .ok i) :
    encode i = w := by
  obtain ⟨⟨hop, ha⟩, rfl⟩ := decodeLoadlit_eq_ok.mp h
  rw [encode, setWidth16_signExtend16, encodeKI_fields hgrp hop ha]

theorem encode_of_decodeHalf {w : Word} {i : Instr} (hgrp : fieldGrp w = 4#3) (h : decodeHalf w = .ok i) :
    encode i = w := by
  obtain ⟨⟨hhigh, hmid⟩, rfl⟩ := decodeHalf_eq_ok.mp h
  have hw := encodeKII_fields hgrp hhigh hmid
  split
  · next hr => rwa [hr] at hw
  · next hr => rwa [(BitVec.eq_zero_or_eq_one _).resolve_right hr] at hw

theorem encode_jumpFalse (cond : Cond) (target : Word) : encode (jumpFalse cond target) = encodeJI 0#2 cond target := by
  cases cond <;> rfl

theorem encode_jumpTrue (cond : Cond) (target : Word) : encode (jumpTrue cond target) = encodeJI 1#2 cond target := by
  cases cond <;> rfl

theorem jop_eq_three {jop : BitVec 2} (h0 : jop ≠ 0#2) (h1 : jop ≠ 1#2) (h2 : jop ≠ 2#2) : jop = 3#2 := by
  revert jop; decide

theorem encode_of_decodeControl {w : Word} {i : Instr} (hgrp : fieldGrp w = 5#3) (h : decodeControl w = .ok i) :
    encode i = w := by
  unfold decodeControl at h
  split at h
  next hjop =>
    obtain ⟨cond, hcond, hhigh, rfl⟩ := decodeCondJump_eq_ok.mp h
    rw [encode_jumpFalse, ← hjop, encodeJI_fields hgrp hcond hhigh]
  next hjop =>
    obtain ⟨cond, hcond, hhigh, rfl⟩ := decodeCondJump_eq_ok.mp h
    rw [encode_jumpTrue, ← hjop, encodeJI_fields hgrp hcond hhigh]
  next hjop =>
    obtain ⟨hhigh, rfl⟩ := requireZero_eq_ok.mp h
    exact encodeJII_fields hgrp hjop (by simpa using hhigh)
  next h0 h1 h2 =>
    obtain ⟨⟨hmid, hlow⟩, rfl⟩ := decodeRegisterJump_eq_ok.mp h
    have hjop : fieldJop w = 3#2 := jop_eq_three h0 h1 h2
    have hw := encodeJR_fields hgrp hjop hmid hlow
    split
    · next hr => rwa [hr] at hw
    · next hr => rwa [(BitVec.eq_zero_or_eq_one _).resolve_right hr] at hw

/-- The encoder inverts the decoder at every word that decodes (30_encoding.md R76, R79). -/
theorem encode_of_decode {w : Word} {i : Instr} (h : decode w = .ok i) : encode i = w := by
  unfold decode at h
  split at h
  next =>
    split at h
    · next hw => cases h; exact hw.symm
    · cases h
  next hgrp => exact encode_of_decodeAlu hgrp h
  next hgrp => exact encode_of_decodeMemory hgrp h
  next hgrp => exact encode_of_decodeLoadlit hgrp h
  next hgrp => exact encode_of_decodeHalf hgrp h
  next hgrp => exact encode_of_decodeControl hgrp h
  next => cases h

/-! ## Decoding the encoding of a well-formed instruction gives the instruction -/

theorem decode_encodeA (op : BitVec 5) (c a b : Reg) : decode (encodeA op c a b) = decodeAlu (encodeA op c a b) := by
  simp [decode, fields_encodeA]

theorem signExtend16_setWidth16 {imm : Word} (h : constFits imm = true) : signExtend16 (imm.setWidth 16) = imm := by
  obtain ⟨hlow, hhigh⟩ := constFits_iff.mp h
  refine BitVec.eq_of_toInt_eq ?_
  rw [signExtend16_eq, BitVec.toInt_signExtend_of_le (by decide)]
  calc (imm.setWidth 16).toInt = (imm.toInt).bmod (2 ^ 16) := by
        rw [BitVec.toInt_setWidth, BitVec.toInt_eq_toNat_bmod, Int.bmod_bmod_of_dvd (by decide)]
    _ = imm.toInt := Int.bmod_eq_of_le (by omega) (by omega)

theorem zeroExtend20_setWidth20 {target : Word} (h : destino20Fits target = true) :
    zeroExtend20 (target.setWidth 20) = target := by
  have hlt := destino20Fits_iff.mp h
  rw [zeroExtend20_eq]
  exact BitVec.eq_of_toNat_eq (by simp; omega)

theorem zeroExtend24_setWidth24 {target : Word} (h : destino24Fits target = true) :
    zeroExtend24 (target.setWidth 24) = target := by
  have hlt := destino24Fits_iff.mp h
  rw [zeroExtend24_eq]
  exact BitVec.eq_of_toNat_eq (by simp; omega)

theorem decode_encodeJI_jf (cond : Cond) {target : Word} (h : destino20Fits target = true) :
    decode (encodeJI 0#2 cond target) = .ok (jumpFalse cond target) := by
  simp [decode, decodeControl, decodeCondJump, requireZero, fields_encodeJI, zeroExtend20_setWidth20 h]

theorem decode_encodeJI_jt (cond : Cond) {target : Word} (h : destino20Fits target = true) :
    decode (encodeJI 1#2 cond target) = .ok (jumpTrue cond target) := by
  simp [decode, decodeControl, decodeCondJump, requireZero, fields_encodeJI, zeroExtend20_setWidth20 h]

/-- The decoder inverts the encoder at every well-formed instruction (30_encoding.md R72, R76, R79). -/
theorem decode_of_encode {i : Instr} (h : i.wf = true) : decode (encode i) = .ok i := by
  cases i
  case load c a => simp [encode, decode, decodeMemory, decodeCA, requireZero, fields_encodeM]
  case store a b => simp [encode, decode, decodeMemory, decodeAB, requireZero, fields_encodeM]
  case loadlit c imm =>
    simp [encode, decode, decodeLoadlit, requireZero, fields_encodeKI, signExtend16_setWidth16 h]
  case lcl c k => simp [encode, decode, decodeHalf, requireZero, fields_encodeKII]
  case lch c k => simp [encode, decode, decodeHalf, requireZero, fields_encodeKII]
  case jfNeg target => exact decode_encodeJI_jf .neg h
  case jfZero target => exact decode_encodeJI_jf .zero h
  case jfCarry target => exact decode_encodeJI_jf .carry h
  case jfNegzero target => exact decode_encodeJI_jf .negzero h
  case jfTrue target => exact decode_encodeJI_jf .true h
  case jfOverflow target => exact decode_encodeJI_jf .overflow h
  case jtNeg target => exact decode_encodeJI_jt .neg h
  case jtZero target => exact decode_encodeJI_jt .zero h
  case jtCarry target => exact decode_encodeJI_jt .carry h
  case jtNegzero target => exact decode_encodeJI_jt .negzero h
  case jtTrue target => exact decode_encodeJI_jt .true h
  case jtOverflow target => exact decode_encodeJI_jt .overflow h
  case j target =>
    simp [encode, decode, decodeControl, requireZero, fields_encodeJII, zeroExtend24_setWidth24 h]
  case jal b => simp [encode, decode, decodeControl, decodeRegisterJump, requireZero, fields_encodeJR]
  case jr b => simp [encode, decode, decodeControl, decodeRegisterJump, requireZero, fields_encodeJR]
  case nop => rfl
  all_goals
    simp [encode, decode_encodeA, decodeAlu, decodeC, decodeCA, decodeCAB, requireZero, fields_encodeA]

/-- The words of a well-formed instruction: its encoding, and no other (30_encoding.md R76). -/
theorem decode_eq_ok_iff {w : Word} {i : Instr} (h : i.wf = true) : decode w = .ok i ↔ w = encode i :=
  ⟨fun hw => (encode_of_decode hw).symm, fun hw => hw ▸ decode_of_encode h⟩

end Sys2Proof.Laws
end

section
/-! PROOFS. The ALU: the words of format A as the rules print them, and what a logic result and an adder result leave
behind (42_alu.md R101 to R117, R122 to R125). -/

namespace Sys2Proof.Laws

/-! ## The words of format A (30_encoding.md R63, R73, R76) -/

theorem encodeA_eq_place (op : BitVec 5) (c a b : Reg) :
    encodeA op c a b = encodeA op 0#4 0#4 0#4 ||| Claims.place c 20 ||| Claims.place a 16 ||| Claims.place b 12 := by
  refine BitVec.eq_of_getLsbD_eq fun i hi => ?_
  simp only [encodeA, Claims.place, BitVec.getLsbD_or, BitVec.getLsbD_shiftLeft, BitVec.getLsbD_setWidth,
    BitVec.getLsbD_append]
  interval_cases i <;> simp

/-- The mask of the three-operand instructions keeps the group, the operation code and the low bits. -/
theorem fields_cab_masked (w : Word) : fieldGrp (w &&& 0xFF000FFF#32) = fieldGrp w
    ∧ fieldOp (w &&& 0xFF000FFF#32) = fieldOp w ∧ fieldLow (w &&& 0xFF000FFF#32) = fieldLow w := by
  refine ⟨?_, ?_, ?_⟩ <;> exact BitVec.extractLsb'_and.trans BitVec.and_allOnes

/-- The mask of the two-operand instructions keeps the field `b` too. -/
theorem fields_ca_masked (w : Word) : fieldGrp (w &&& 0xFF00FFFF#32) = fieldGrp w
    ∧ fieldOp (w &&& 0xFF00FFFF#32) = fieldOp w ∧ fieldB (w &&& 0xFF00FFFF#32) = fieldB w
    ∧ fieldLow (w &&& 0xFF00FFFF#32) = fieldLow w := by
  refine ⟨?_, ?_, ?_, ?_⟩ <;> exact BitVec.extractLsb'_and.trans BitVec.and_allOnes

theorem encodeA_cab_masked_iff {w : Word} {op : BitVec 5} :
    w &&& 0xFF000FFF#32 = encodeA op 0#4 0#4 0#4 ↔ ∃ c a b, w = encodeA op c a b := by
  constructor
  · intro h
    obtain ⟨hgrp, hop, hlow⟩ := fields_cab_masked w
    simp only [h, fields_encodeA] at hgrp hop hlow
    exact ⟨_, _, _, by rw [hop, encodeA_fields hgrp.symm hlow.symm]⟩
  · rintro ⟨c, a, b, rfl⟩
    exact encodeA_cab_masked op c a b

theorem encodeA_ca_masked_iff {w : Word} {op : BitVec 5} :
    w &&& 0xFF00FFFF#32 = encodeA op 0#4 0#4 0#4 ↔ ∃ c a, w = encodeA op c a 0#4 := by
  constructor
  · intro h
    obtain ⟨hgrp, hop, hb, hlow⟩ := fields_ca_masked w
    simp only [h, fields_encodeA] at hgrp hop hb hlow
    exact ⟨_, _, by rw [hop, hb, encodeA_fields hgrp.symm hlow.symm]⟩
  · rintro ⟨c, a, rfl⟩
    exact encodeA_ca_masked op c a

end Sys2Proof.Laws

namespace Sys2Proof.Machine

open Sys2Proof.Claims Sys2Proof.Laws

/-- Where `mk` is encoded in format A, its words are those that a rule of 42_alu.md prints for three operands. -/
theorem encodedCAB_of_encodeA {op : BitVec 5} {code : Word} {mk : Reg → Reg → Reg → Instr}
    (henc : ∀ c a b, (mk c a b).wf = true ∧ encode (mk c a b) = encodeA op c a b)
    (hcode : encodeA op 0#4 0#4 0#4 = code) : encodedCAB code mk := by
  have hdec (w c a b) : decode w = .ok (mk c a b) ↔ w = encodeA op c a b := by
    obtain ⟨hwf, hword⟩ := henc c a b
    rw [decode_eq_ok_iff hwf, hword]
  subst hcode
  simp only [encodedCAB, hdec]
  exact ⟨fun w c a b => by rw [encodeA_eq_place], fun w => encodeA_cab_masked_iff⟩

/-- The same with two operands. -/
theorem encodedCA_of_encodeA {op : BitVec 5} {code : Word} {mk : Reg → Reg → Instr}
    (henc : ∀ c a, (mk c a).wf = true ∧ encode (mk c a) = encodeA op c a 0#4)
    (hcode : encodeA op 0#4 0#4 0#4 = code) : encodedCA code mk := by
  have hdec (w c a) : decode w = .ok (mk c a) ↔ w = encodeA op c a 0#4 := by
    obtain ⟨hwf, hword⟩ := henc c a
    rw [decode_eq_ok_iff hwf, hword]
  have hplace (c a : Reg) : encodeA op c a 0#4 = encodeA op 0#4 0#4 0#4 ||| place c 20 ||| place a 16 := by
    rw [encodeA_eq_place]; simp [place]
  subst hcode
  simp only [encodedCA, hdec]
  exact ⟨fun w c a => by rw [hplace], fun w => encodeA_ca_masked_iff⟩

/-! ## What the shared shapes leave behind, in the terms of the statements -/

theorem registerWritten_of_regs {s t : State} {c : Reg} {v : Word} (hregs : t.regs = (writeReg s c v).regs)
    (hz : t.r0Zero = s.r0Zero) : registerWritten s t c v := by
  intro r
  have hread : readReg t r = if isHardwired s r then 0#32 else if r = c then v else readReg s r := by
    rw [readReg_congr hregs (by simpa using hz), readReg_writeReg]
  exact ⟨fun hr => by rw [hread, if_pos (isHardwired_iff.mpr hr)],
    fun hr => by simp [hread, isHardwired_eq_false_iff.mpr hr]⟩

theorem negOf_eq_msb (r : Word) : negOf r = r.msb := by
  rw [negOf, BitVec.msb_eq_getLsbD_last]

theorem zeroOf_eq_decide (r : Word) : zeroOf r = decide (r.toNat = 0) := by
  simp [zeroOf, ← BitVec.toNat_inj, beq_eq_decide]

theorem withNegZero_eq_negZero (f : Flags) (r : Word) : withNegZero f r = negZero f r := by
  rw [withNegZero, negZero, negOf_eq_msb, zeroOf_eq_decide]

theorem flagsOfSum_eq_allFour (sum : AdderResult) : flagsOfSum sum = allFour sum := by
  rw [flagsOfSum, allFour, negOf_eq_msb, zeroOf_eq_decide]

/-- A register written, RF replaced and the pc advanced: the end of every instruction that writes flags. -/
theorem wroteAndAdvanced_advance (s : State) (c : Reg) (v : Word) (f : Flags) :
    wroteAndAdvanced s c v f (advance (setFlags (writeReg s c v) f)) := by
  have hregs : registerWritten s (advance (setFlags (writeReg s c v) f)) c v :=
    registerWritten_of_regs (by simp) (by simp)
  exact ⟨hregs, by simp, by simp, fun a => by simp, by simp [programKept], by simp⟩

theorem wroteAndAdvanced_finishLogic (s : State) (c : Reg) (r : Word) :
    wroteAndAdvanced s c r (negZero s.flags r) (finishLogic s c r) := by
  rw [finishLogic, withNegZero_eq_negZero]
  exact wroteAndAdvanced_advance s c r _

theorem wroteAndAdvanced_finishSum (s : State) (c : Reg) (sum : AdderResult) :
    wroteAndAdvanced s c sum.result (allFour sum) (finishSum s c sum) := by
  rw [finishSum, flagsOfSum_eq_allFour]
  exact wroteAndAdvanced_advance s c sum.result _

/-! ## The shapes of the rules, from the operation code and the shape that the arm of `exec` ends in -/

theorem logicRule_of_finishLogic (op : BitVec 5) {code : Word} {mk : Reg → Reg → Reg → Instr} {f : Word → Word → Word}
    (henc : ∀ c a b, (mk c a b).wf = true ∧ encode (mk c a b) = encodeA op c a b)
    (hcode : encodeA op 0#4 0#4 0#4 = code)
    (hexec : ∀ c a b s, exec (mk c a b) s = .next (finishLogic s c (f (readReg s a) (readReg s b)))) :
    logicRule code mk f :=
  ⟨encodedCAB_of_encodeA henc hcode, fun c a b s => ⟨_, hexec c a b s, wroteAndAdvanced_finishLogic s c _⟩⟩

theorem moveRule_of_finishLogic (op : BitVec 5) {code : Word} {mk : Reg → Reg → Instr} {f : Word → Word}
    (henc : ∀ c a, (mk c a).wf = true ∧ encode (mk c a) = encodeA op c a 0#4)
    (hcode : encodeA op 0#4 0#4 0#4 = code)
    (hexec : ∀ c a s, exec (mk c a) s = .next (finishLogic s c (f (readReg s a)))) : moveRule code mk f :=
  ⟨encodedCA_of_encodeA henc hcode, fun c a s => ⟨_, hexec c a s, wroteAndAdvanced_finishLogic s c _⟩⟩

theorem adderRule_of_finishSum (op : BitVec 5) {code : Word} {mk : Reg → Reg → Reg → Instr}
    {f : Word → Word → AdderResult}
    (henc : ∀ c a b, (mk c a b).wf = true ∧ encode (mk c a b) = encodeA op c a b)
    (hcode : encodeA op 0#4 0#4 0#4 = code)
    (hexec : ∀ c a b s, exec (mk c a b) s = .next (finishSum s c (f (readReg s a) (readReg s b)))) :
    adderRule code mk f :=
  ⟨encodedCAB_of_encodeA henc hcode, fun c a b s => ⟨_, hexec c a b s, wroteAndAdvanced_finishSum s c _⟩⟩

theorem stepRule_of_finishSum (op : BitVec 5) {code : Word} {mk : Reg → Reg → Instr} {f : Word → AdderResult}
    (henc : ∀ c a, (mk c a).wf = true ∧ encode (mk c a) = encodeA op c a 0#4)
    (hcode : encodeA op 0#4 0#4 0#4 = code)
    (hexec : ∀ c a s, exec (mk c a) s = .next (finishSum s c (f (readReg s a)))) : stepRule code mk f :=
  ⟨encodedCA_of_encodeA henc hcode, fun c a s => ⟨_, hexec c a s, wroteAndAdvanced_finishSum s c _⟩⟩

/-- Settles O18: and, andnota, xor, or, nor, xnor, ornotb and nand, each with its operation code (30_encoding.md R73), end
in a logic result. -/
theorem logicInstructionsAreBitwise : Obligations.LogicInstructionsAreBitwise :=
  ⟨logicRule_of_finishLogic 0b00001#5 (fun _ _ _ => ⟨rfl, rfl⟩) rfl fun _ _ _ _ => rfl,
    logicRule_of_finishLogic 0b00010#5 (fun _ _ _ => ⟨rfl, rfl⟩) rfl fun _ _ _ _ => rfl,
    logicRule_of_finishLogic 0b00100#5 (fun _ _ _ => ⟨rfl, rfl⟩) rfl fun _ _ _ _ => rfl,
    logicRule_of_finishLogic 0b00101#5 (fun _ _ _ => ⟨rfl, rfl⟩) rfl fun _ _ _ _ => rfl,
    logicRule_of_finishLogic 0b00110#5 (fun _ _ _ => ⟨rfl, rfl⟩) rfl fun _ _ _ _ => rfl,
    logicRule_of_finishLogic 0b00111#5 (fun _ _ _ => ⟨rfl, rfl⟩) rfl fun _ _ _ _ => rfl,
    logicRule_of_finishLogic 0b01001#5 (fun _ _ _ => ⟨rfl, rfl⟩) rfl fun _ _ _ _ => rfl,
    logicRule_of_finishLogic 0b01010#5 (fun _ _ _ => ⟨rfl, rfl⟩) rfl fun _ _ _ _ => rfl⟩

/-- Settles O19: passa and passnota end in a logic result of one operand. -/
theorem passInstructionsCopyOrComplement : Obligations.PassInstructionsCopyOrComplement :=
  ⟨moveRule_of_finishLogic 0b00011#5 (fun _ _ => ⟨rfl, rfl⟩) rfl fun _ _ _ => rfl,
    moveRule_of_finishLogic 0b01000#5 (fun _ _ => ⟨rfl, rfl⟩) rfl fun _ _ _ => rfl⟩

/-- Settles O22: addinc, inca, subdec, sub and deca, each with its operation code, end in an adder result. -/
theorem otherAdderInstructionsAreTheAdder : Obligations.OtherAdderInstructionsAreTheAdder :=
  ⟨adderRule_of_finishSum 0b01101#5 (fun _ _ _ => ⟨rfl, rfl⟩) rfl fun _ _ _ _ => rfl,
    stepRule_of_finishSum 0b01110#5 (fun _ _ => ⟨rfl, rfl⟩) rfl fun _ _ _ => rfl,
    adderRule_of_finishSum 0b01111#5 (fun _ _ _ => ⟨rfl, rfl⟩) rfl fun _ _ _ _ => rfl,
    adderRule_of_finishSum 0b10000#5 (fun _ _ _ => ⟨rfl, rfl⟩) rfl fun _ _ _ _ => rfl,
    stepRule_of_finishSum 0b10001#5 (fun _ _ => ⟨rfl, rfl⟩) rfl fun _ _ _ => rfl⟩

end Sys2Proof.Machine
end

section
/-! PROOFS. The unconditional jumps: the words of formats J-II, J-III and J-IV as the rules print them, and what a jump
leaves unchanged (43_control_transfer.md R133, R135). -/

namespace Sys2Proof.Laws

/-! ## The words of format J-II (30_encoding.md R69, R72, R76) -/

theorem encodeJII_eq_or (target : Word) : encodeJII target = encodeJII 0#32 ||| zeroExtend24 (target.setWidth 24) := by
  rw [zeroExtend24_eq]
  refine BitVec.eq_of_getLsbD_eq fun i hi => ?_
  simp only [encodeJII, BitVec.getLsbD_or, BitVec.getLsbD_setWidth, BitVec.getLsbD_append]
  interval_cases i <;> simp

/-- Only the low 24 bits of a target reach the word, and the decoder gives them back (R72). -/
theorem decode_encodeJII (target : Word) :
    decode (encodeJII target) = .ok (.j (zeroExtend24 (target.setWidth 24))) := by
  simp [decode, decodeControl, requireZero, fields_encodeJII]

theorem destino24Fits_zeroExtend24 (d : BitVec 24) : destino24Fits (zeroExtend24 d) = true := by
  rw [destino24Fits_iff, zeroExtend24_eq, BitVec.toNat_setWidth_of_le (by decide)]
  exact d.isLt

/-- The words that decode to a j: its target fits into 24 bits, and the word is its encoding. -/
theorem decode_eq_ok_j_iff {w target : Word} :
    decode w = .ok (.j target) ↔ destino24Fits target = true ∧ w = encodeJII target := by
  constructor
  · intro h
    have hw : encodeJII target = w := encode_of_decode h
    have htarget : zeroExtend24 (target.setWidth 24) = target := by
      simpa [← hw, decode_encodeJII] using h
    exact ⟨htarget ▸ destino24Fits_zeroExtend24 _, hw.symm⟩
  · rintro ⟨hfits, hw⟩
    have hwf : (Instr.j target).wf = true := hfits
    exact (decode_eq_ok_iff hwf).mpr hw

/-- The mask of j keeps the group, `jop` and the bits above Destino. -/
theorem fields_jump24_masked (w : Word) : fieldGrp (w &&& 0xFF000000#32) = fieldGrp w
    ∧ fieldJop (w &&& 0xFF000000#32) = fieldJop w ∧ fieldJumpHigh (w &&& 0xFF000000#32) = fieldJumpHigh w := by
  refine ⟨?_, ?_, ?_⟩ <;> exact BitVec.extractLsb'_and.trans BitVec.and_allOnes

theorem encodeJII_masked_iff {w : Word} :
    w &&& 0xFF000000#32 = encodeJII 0#32 ↔ ∃ target, destino24Fits target = true ∧ w = encodeJII target := by
  constructor
  · intro h
    obtain ⟨hgrp, hjop, hhigh⟩ := fields_jump24_masked w
    simp only [h, fields_encodeJII] at hgrp hjop hhigh
    exact ⟨_, destino24Fits_zeroExtend24 _, (encodeJII_fields hgrp.symm hjop.symm hhigh.symm).symm⟩
  · rintro ⟨target, -, rfl⟩
    exact encodeJII_masked target

/-! ## The words of formats J-III and J-IV (30_encoding.md R70, R76) -/

theorem encodeJR_eq_place (r : BitVec 1) (b : Reg) : encodeJR r b = encodeJR r 0#4 ||| Claims.place b 12 := by
  refine BitVec.eq_of_getLsbD_eq fun i hi => ?_
  simp only [encodeJR, Claims.place, BitVec.getLsbD_or, BitVec.getLsbD_shiftLeft, BitVec.getLsbD_setWidth,
    BitVec.getLsbD_append]
  interval_cases i <;> simp

/-- The mask of jal and jr keeps every field but `b`. -/
theorem fields_register_jump_masked (w : Word) : fieldGrp (w &&& 0xFFFF0FFF#32) = fieldGrp w
    ∧ fieldJop (w &&& 0xFFFF0FFF#32) = fieldJop w ∧ fieldJumpR (w &&& 0xFFFF0FFF#32) = fieldJumpR w
    ∧ fieldJumpMid (w &&& 0xFFFF0FFF#32) = fieldJumpMid w ∧ fieldLow (w &&& 0xFFFF0FFF#32) = fieldLow w := by
  refine ⟨?_, ?_, ?_, ?_, ?_⟩ <;> exact BitVec.extractLsb'_and.trans BitVec.and_allOnes

theorem encodeJR_masked_iff {w : Word} {r : BitVec 1} :
    w &&& 0xFFFF0FFF#32 = encodeJR r 0#4 ↔ ∃ b, w = encodeJR r b := by
  constructor
  · intro h
    obtain ⟨hgrp, hjop, hr, hmid, hlow⟩ := fields_register_jump_masked w
    simp only [h, fields_encodeJR] at hgrp hjop hr hmid hlow
    exact ⟨_, by rw [hr, encodeJR_fields hgrp.symm hjop.symm hmid.symm hlow.symm]⟩
  · rintro ⟨b, rfl⟩
    exact encodeJR_masked r b

end Sys2Proof.Laws

namespace Sys2Proof.Machine

open Sys2Proof.Claims Sys2Proof.Laws

/-- The words of j are those that 43_control_transfer.md R133 prints. -/
theorem encodedJump_j : encodedJump 0xB0000000#32 0xFF000000#32 24 .j := by
  have hcode : encodeJII 0#32 = 0xB0000000#32 := rfl
  simp only [encodedJump, decode_eq_ok_j_iff, ← hcode]
  refine ⟨fun w target => ?_, fun w => encodeJII_masked_iff⟩
  have hrange : destino24Fits target = true ↔ target.toNat < 2 ^ 24 := destino24Fits_iff
  rw [← hrange]
  refine and_congr_right fun hfits => ?_
  rw [encodeJII_eq_or, zeroExtend24_setWidth24 hfits]

/-- Where `mk` is encoded in format J-III or J-IV, its words are those that a rule of 43_control_transfer.md prints for
a jump to a register. -/
theorem encodedB_of_encodeJR (r : BitVec 1) {code : Word} {mk : Reg → Instr}
    (henc : ∀ b, (mk b).wf = true ∧ encode (mk b) = encodeJR r b) (hcode : encodeJR r 0#4 = code) :
    encodedB code mk := by
  have hdec (w b) : decode w = .ok (mk b) ↔ w = encodeJR r b := by
    obtain ⟨hwf, hword⟩ := henc b
    rw [decode_eq_ok_iff hwf, hword]
  subst hcode
  simp only [encodedB, hdec]
  exact ⟨fun w b => by rw [encodeJR_eq_place], fun w => encodeJR_masked_iff⟩

/-- A jump that draws nothing sets the pc, and nothing else. -/
theorem jumped_setPc (s : State) (target : Word) : jumped s target false (setPc s target) := by
  have hregs : registersKept s (setPc s target) := fun r => readReg_setPc s target r
  have hmem : memoryKept s (setPc s target) := fun a => by rw [setPc_dmem]
  exact ⟨hregs, setPc_flags s target, setPc_pc s target, hmem, by simp [programKept], by simp⟩

theorem exec_j (target : Word) (s : State) : exec (.j target) s = .next (setPc s target) := rfl

theorem exec_jr (b : Reg) (s : State) : exec (.jr b) s = .next (setPc s (readReg s b)) := rfl

/-- Settles O32: the words of j, and its arm as one assignment to the pc. -/
theorem jumpGoesToItsTarget : Obligations.JumpGoesToItsTarget :=
  ⟨encodedJump_j, fun target s => ⟨_, exec_j target s, jumped_setPc s target⟩⟩

/-- Settles O33: the words of jr (format J-IV, the bit `R` set), and its arm as one assignment to the pc. -/
theorem jumpRegisterGoesToTheRegister : Obligations.JumpRegisterGoesToTheRegister :=
  ⟨encodedB_of_encodeJR 1#1 (fun _ => ⟨rfl, rfl⟩) rfl,
    fun b s => ⟨_, exec_jr b s, jumped_setPc s (readReg s b)⟩⟩

end Sys2Proof.Machine
end

section
/-! PROOFS. HALT: a j to its own address is a step from a state to itself, and a run of such steps stays there
(44_nop_halt.md R141, R142). -/

namespace Sys2Proof.Machine

open Sys2Proof.Claims Sys2Proof.Safety

theorem setPc_self (s : State) : setPc s s.pc = s := rfl

/-- A state that steps to itself is the end of every run from it, of any length. -/
theorem run_of_step_self {s : State} (h : step s = .next s) (k : Nat) : Sys2Proof.core.run k s = .next s := by
  induction k with
  | zero => exact run_zero.mpr rfl
  | succ k ih => exact run_succ.mpr ⟨s, h, ih⟩

/-- In a halted state the step is `pc <- pc`. -/
theorem step_of_halted {s : State} (h : halted s = true) : step s = .next s := by
  obtain ⟨w, hfetch, hdecode⟩ := halted_iff.mp h
  have hexec : exec (.j s.pc) s = .next s := by rw [exec_j, setPc_self]
  exact step_next.mpr ⟨w, .j s.pc, hfetch, hdecode, hexec⟩

/-- The word of HALT at an address below `2^24` makes a state halted. -/
theorem halted_of_fetch {s : State} (hpc : s.pc.toNat < 2 ^ 24) (hfetch : fetch s = .ok (0xB0000000#32 ||| s.pc)) :
    halted s = true := by
  obtain ⟨hword, -⟩ := encodedJump_j
  have hdecode : decode (0xB0000000#32 ||| s.pc) = .ok (.j s.pc) := (hword _ _).mpr ⟨hpc, rfl⟩
  exact halted_iff.mpr ⟨_, hfetch, hdecode⟩

/-- Settles O37: the state is halted, a halted state steps to itself, and so a run of any length ends in it. -/
theorem haltNeverChangesTheState : Obligations.HaltNeverChangesTheState :=
  fun _ hpc hfetch => run_of_step_self (step_of_halted (halted_of_fetch hpc hfetch))

end Sys2Proof.Machine
end

section
/-! PROOFS. The words of formats A (one operand), M, K-I, K-II and J-I as the rules print them, and that every decoded
instruction is well formed (30_encoding.md R63 to R68, R72, R76, R79). -/

namespace Sys2Proof.Laws

/-! ## The words of format A with the operand `c` alone (R63) -/

/-- The mask of zeros and ones keeps every field but `c`. -/
theorem fields_c_masked (w : Word) : fieldGrp (w &&& 0xFF0FFFFF#32) = fieldGrp w
    ∧ fieldOp (w &&& 0xFF0FFFFF#32) = fieldOp w ∧ fieldA (w &&& 0xFF0FFFFF#32) = fieldA w
    ∧ fieldB (w &&& 0xFF0FFFFF#32) = fieldB w ∧ fieldLow (w &&& 0xFF0FFFFF#32) = fieldLow w := by
  refine ⟨?_, ?_, ?_, ?_, ?_⟩ <;> exact BitVec.extractLsb'_and.trans BitVec.and_allOnes

theorem encodeA_c_masked_iff {w : Word} {op : BitVec 5} :
    w &&& 0xFF0FFFFF#32 = encodeA op 0#4 0#4 0#4 ↔ ∃ c, w = encodeA op c 0#4 0#4 := by
  constructor
  · intro h
    obtain ⟨hgrp, hop, ha, hb, hlow⟩ := fields_c_masked w
    simp only [h, fields_encodeA] at hgrp hop ha hb hlow
    have hw := encodeA_fields hgrp.symm hlow.symm
    rw [← hop, ← ha, ← hb] at hw
    exact ⟨_, hw.symm⟩
  · rintro ⟨c, rfl⟩
    exact encodeA_c_masked op c

/-! ## The words of format M (R64, R74) -/

theorem encodeM_eq_place (op : BitVec 5) (c a b : Reg) :
    encodeM op c a b = encodeM op 0#4 0#4 0#4 ||| Claims.place c 20 ||| Claims.place a 16 ||| Claims.place b 12 := by
  refine BitVec.eq_of_getLsbD_eq fun i hi => ?_
  simp only [encodeM, Claims.place, BitVec.getLsbD_or, BitVec.getLsbD_shiftLeft, BitVec.getLsbD_setWidth,
    BitVec.getLsbD_append]
  interval_cases i <;> simp

theorem encodeM_ca_masked_iff {w : Word} {op : BitVec 5} :
    w &&& 0xFF00FFFF#32 = encodeM op 0#4 0#4 0#4 ↔ ∃ c a, w = encodeM op c a 0#4 := by
  constructor
  · intro h
    obtain ⟨hgrp, hop, hb, hlow⟩ := fields_ca_masked w
    simp only [h, fields_encodeM] at hgrp hop hb hlow
    exact ⟨_, _, by rw [hop, hb, encodeM_fields hgrp.symm hlow.symm]⟩
  · rintro ⟨c, a, rfl⟩
    exact encodeM_ca_masked op c a

/-- The mask of store keeps the field `c`, which is zero, and not `a` and `b`. -/
theorem fields_ab_masked (w : Word) : fieldGrp (w &&& 0xFFF00FFF#32) = fieldGrp w
    ∧ fieldOp (w &&& 0xFFF00FFF#32) = fieldOp w ∧ fieldC (w &&& 0xFFF00FFF#32) = fieldC w
    ∧ fieldLow (w &&& 0xFFF00FFF#32) = fieldLow w := by
  refine ⟨?_, ?_, ?_, ?_⟩ <;> exact BitVec.extractLsb'_and.trans BitVec.and_allOnes

theorem encodeM_ab_masked_iff {w : Word} {op : BitVec 5} :
    w &&& 0xFFF00FFF#32 = encodeM op 0#4 0#4 0#4 ↔ ∃ a b, w = encodeM op 0#4 a b := by
  constructor
  · intro h
    obtain ⟨hgrp, hop, hc, hlow⟩ := fields_ab_masked w
    simp only [h, fields_encodeM] at hgrp hop hc hlow
    exact ⟨_, _, by rw [hop, hc, encodeM_fields hgrp.symm hlow.symm]⟩
  · rintro ⟨a, b, rfl⟩
    exact encodeM_ab_masked op a b

/-! ## The words of format K-I (R65, R72) -/

theorem encodeKI_eq_place (c : Reg) (k : BitVec 16) :
    encodeKI c k = encodeKI 0#4 0#16 ||| Claims.place c 20 ||| Claims.place k 0 := by
  refine BitVec.eq_of_getLsbD_eq fun i hi => ?_
  simp only [encodeKI, Claims.place, BitVec.getLsbD_or, BitVec.getLsbD_shiftLeft, BitVec.getLsbD_setWidth,
    BitVec.getLsbD_append]
  interval_cases i <;> simp

theorem decode_encodeKI (c : Reg) (k : BitVec 16) : decode (encodeKI c k) = .ok (.loadlit c (signExtend16 k)) := by
  simp [decode, decodeLoadlit, requireZero, fields_encodeKI]

/-- The words that decode to a loadlit: its constant is the sign extension of the word's 16 bits. -/
theorem decode_eq_ok_loadlit_iff {w : Word} {c : Reg} {imm : Word} :
    decode w = .ok (.loadlit c imm) ↔ ∃ k : BitVec 16, imm = signExtend16 k ∧ w = encodeKI c k := by
  constructor
  · intro h
    have hw : encodeKI c (imm.setWidth 16) = w := encode_of_decode h
    have himm : signExtend16 (imm.setWidth 16) = imm := by simpa [← hw, decode_encodeKI] using h
    exact ⟨_, himm.symm, hw.symm⟩
  · rintro ⟨k, rfl, rfl⟩
    exact decode_encodeKI c k

theorem toInt_signExtend16 (k : BitVec 16) : (signExtend16 k).toInt = k.toInt := by
  rw [signExtend16_eq, BitVec.toInt_signExtend_of_le (by decide)]

theorem constFits_signExtend16 (k : BitVec 16) : constFits (signExtend16 k) = true := by
  have hlow : -32768 ≤ k.toInt := BitVec.le_toInt k
  have hhigh : k.toInt < 32768 := BitVec.toInt_lt
  rw [constFits_iff, toInt_signExtend16]
  omega

/-- The mask of loadlit keeps every field but `c` and the constant. -/
theorem fields_constant_masked (w : Word) : fieldGrp (w &&& 0xFF0F0000#32) = fieldGrp w
    ∧ fieldOp (w &&& 0xFF0F0000#32) = fieldOp w ∧ fieldA (w &&& 0xFF0F0000#32) = fieldA w := by
  refine ⟨?_, ?_, ?_⟩ <;> exact BitVec.extractLsb'_and.trans BitVec.and_allOnes

theorem encodeKI_masked_iff {w : Word} : w &&& 0xFF0F0000#32 = encodeKI 0#4 0#16 ↔ ∃ c k, w = encodeKI c k := by
  constructor
  · intro h
    obtain ⟨hgrp, hop, ha⟩ := fields_constant_masked w
    simp only [h, fields_encodeKI] at hgrp hop ha
    exact ⟨_, _, (encodeKI_fields hgrp.symm hop.symm ha.symm).symm⟩
  · rintro ⟨c, k, rfl⟩
    exact encodeKI_masked c k

/-! ## The words of format K-II (R66) -/

theorem encodeKII_eq_place (r : BitVec 1) (c : Reg) (k : BitVec 8) :
    encodeKII r c k = encodeKII r 0#4 0#8 ||| Claims.place c 20 ||| Claims.place k 0 := by
  refine BitVec.eq_of_getLsbD_eq fun i hi => ?_
  simp only [encodeKII, Claims.place, BitVec.getLsbD_or, BitVec.getLsbD_shiftLeft, BitVec.getLsbD_setWidth,
    BitVec.getLsbD_append]
  interval_cases i <;> simp

/-- The mask of lcl and lch keeps every field but `c` and the constant. -/
theorem fields_half_masked (w : Word) : fieldGrp (w &&& 0xFF0FFF00#32) = fieldGrp w
    ∧ fieldHalfR (w &&& 0xFF0FFF00#32) = fieldHalfR w ∧ fieldHalfHigh (w &&& 0xFF0FFF00#32) = fieldHalfHigh w
    ∧ fieldHalfMid (w &&& 0xFF0FFF00#32) = fieldHalfMid w := by
  refine ⟨?_, ?_, ?_, ?_⟩ <;> exact BitVec.extractLsb'_and.trans BitVec.and_allOnes

theorem encodeKII_masked_iff {w : Word} {r : BitVec 1} :
    w &&& 0xFF0FFF00#32 = encodeKII r 0#4 0#8 ↔ ∃ c k, w = encodeKII r c k := by
  constructor
  · intro h
    obtain ⟨hgrp, hr, hhigh, hmid⟩ := fields_half_masked w
    simp only [h, fields_encodeKII] at hgrp hr hhigh hmid
    exact ⟨_, _, by rw [hr, encodeKII_fields hgrp.symm hhigh.symm hmid.symm]⟩
  · rintro ⟨c, k, rfl⟩
    exact encodeKII_masked r c k

/-! ## The words of format J-I (R68, R72, R75) -/

theorem encodeJI_eq_or (jop : BitVec 2) (cond : Cond) (target : Word) :
    encodeJI jop cond target = encodeJI jop cond 0#32 ||| zeroExtend20 (target.setWidth 20) := by
  rw [zeroExtend20_eq]
  refine BitVec.eq_of_getLsbD_eq fun i hi => ?_
  simp only [encodeJI, BitVec.getLsbD_or, BitVec.getLsbD_setWidth, BitVec.getLsbD_append]
  interval_cases i <;> simp

theorem destino20Fits_zeroExtend20 (d : BitVec 20) : destino20Fits (zeroExtend20 d) = true := by
  rw [destino20Fits_iff, zeroExtend20_eq, BitVec.toNat_setWidth_of_le (by decide)]
  exact d.isLt

/-- The mask of jf and jt keeps every field but Destino. -/
theorem fields_jump20_masked (w : Word) : fieldGrp (w &&& 0xFFF00000#32) = fieldGrp w
    ∧ fieldJop (w &&& 0xFFF00000#32) = fieldJop w ∧ fieldJumpHigh (w &&& 0xFFF00000#32) = fieldJumpHigh w
    ∧ fieldCond (w &&& 0xFFF00000#32) = fieldCond w := by
  refine ⟨?_, ?_, ?_, ?_⟩ <;> exact BitVec.extractLsb'_and.trans BitVec.and_allOnes

theorem encodeJI_masked_iff {w : Word} {jop : BitVec 2} {cond : Cond} :
    w &&& 0xFFF00000#32 = encodeJI jop cond 0#32
      ↔ ∃ target, destino20Fits target = true ∧ w = encodeJI jop cond target := by
  constructor
  · intro h
    obtain ⟨hgrp, hjop, hhigh, hcond⟩ := fields_jump20_masked w
    simp only [h, fields_encodeJI] at hgrp hjop hhigh hcond
    exact ⟨_, destino20Fits_zeroExtend20 _, by rw [hjop, encodeJI_fields hgrp.symm hcond hhigh.symm]⟩
  · rintro ⟨target, -, rfl⟩
    exact encodeJI_masked jop cond target

/-- Only the low 20 bits of a target reach the word, and the decoder gives them back. -/
theorem decode_encodeJI (cond : Cond) (target : Word) :
    decode (encodeJI 0#2 cond target) = .ok (jumpFalse cond (zeroExtend20 (target.setWidth 20)))
      ∧ decode (encodeJI 1#2 cond target) = .ok (jumpTrue cond (zeroExtend20 (target.setWidth 20))) := by
  constructor <;> simp [decode, decodeControl, decodeCondJump, requireZero, fields_encodeJI]

theorem jumpFalse_injective (cond : Cond) : Function.Injective (jumpFalse cond) := by
  intro t t' h
  cases cond <;> simpa [jumpFalse] using h

theorem jumpTrue_injective (cond : Cond) : Function.Injective (jumpTrue cond) := by
  intro t t' h
  cases cond <;> simpa [jumpTrue] using h

/-- Where `mk` is encoded in format J-I, its words are those whose target fits into 20 bits. -/
theorem decode_eq_ok_iff_of_encodeJI {jop : BitVec 2} {cond : Cond} {mk : Word → Instr} (hmk : Function.Injective mk)
    (henc : ∀ target, encode (mk target) = encodeJI jop cond target)
    (hdec : ∀ target, decode (encodeJI jop cond target) = .ok (mk (zeroExtend20 (target.setWidth 20))))
    {w target : Word} : decode w = .ok (mk target) ↔ destino20Fits target = true ∧ w = encodeJI jop cond target := by
  constructor
  · intro h
    have hw : encodeJI jop cond target = w := henc target ▸ encode_of_decode h
    have htarget : zeroExtend20 (target.setWidth 20) = target := by
      rw [← hw, hdec] at h
      exact hmk (Except.ok.inj h)
    exact ⟨htarget ▸ destino20Fits_zeroExtend20 _, hw.symm⟩
  · rintro ⟨hfits, rfl⟩
    rw [hdec, zeroExtend20_setWidth20 hfits]

theorem decode_eq_ok_jumpFalse_iff {w : Word} {cond : Cond} {target : Word} : decode w = .ok (jumpFalse cond target) ↔
    destino20Fits target = true ∧ w = encodeJI 0#2 cond target :=
  decode_eq_ok_iff_of_encodeJI (jumpFalse_injective cond) (encode_jumpFalse cond) fun t => (decode_encodeJI cond t).1

theorem decode_eq_ok_jumpTrue_iff {w : Word} {cond : Cond} {target : Word} : decode w = .ok (jumpTrue cond target) ↔
    destino20Fits target = true ∧ w = encodeJI 1#2 cond target :=
  decode_eq_ok_iff_of_encodeJI (jumpTrue_injective cond) (encode_jumpTrue cond) fun t => (decode_encodeJI cond t).2

/-! ## What decodes is well formed -/

theorem destino20Fits_of_decode_jumpFalse (cond : Cond) {w target : Word} (h : decode w = .ok (jumpFalse cond target)) :
    destino20Fits target = true := (decode_eq_ok_jumpFalse_iff.mp h).1

theorem destino20Fits_of_decode_jumpTrue (cond : Cond) {w target : Word} (h : decode w = .ok (jumpTrue cond target)) :
    destino20Fits target = true := (decode_eq_ok_jumpTrue_iff.mp h).1

/-- The immediates of a decoded instruction fit their fields (30_encoding.md R72); an instruction without one is always
well formed. -/
theorem wf_of_decode {w : Word} {i : Instr} (h : decode w = .ok i) : i.wf = true := by
  cases i
  case loadlit c imm =>
    obtain ⟨k, rfl, -⟩ := decode_eq_ok_loadlit_iff.mp h
    exact constFits_signExtend16 k
  case jfNeg t => exact destino20Fits_of_decode_jumpFalse .neg h
  case jfZero t => exact destino20Fits_of_decode_jumpFalse .zero h
  case jfCarry t => exact destino20Fits_of_decode_jumpFalse .carry h
  case jfNegzero t => exact destino20Fits_of_decode_jumpFalse .negzero h
  case jfTrue t => exact destino20Fits_of_decode_jumpFalse .true h
  case jfOverflow t => exact destino20Fits_of_decode_jumpFalse .overflow h
  case jtNeg t => exact destino20Fits_of_decode_jumpTrue .neg h
  case jtZero t => exact destino20Fits_of_decode_jumpTrue .zero h
  case jtCarry t => exact destino20Fits_of_decode_jumpTrue .carry h
  case jtNegzero t => exact destino20Fits_of_decode_jumpTrue .negzero h
  case jtTrue t => exact destino20Fits_of_decode_jumpTrue .true h
  case jtOverflow t => exact destino20Fits_of_decode_jumpTrue .overflow h
  case j t =>
    obtain ⟨hfits, -⟩ := decode_eq_ok_j_iff.mp h
    exact hfits
  all_goals rfl

/-- Settles O2: the encoding of each format has the fields it was built from, so the decoder gives them back. -/
theorem decodeOfEncode : Obligations.DecodeOfEncode := fun _ => decode_of_encode

/-- Settles O3: the fields of a decoded word, encoded again, are the word. -/
theorem encodeOfDecode : Obligations.EncodeOfDecode := fun _ _ h => ⟨wf_of_decode h, encode_of_decode h⟩

/-- Settles O1: thirteen closed words, each run through the decoder. -/
theorem sampleWordsDecode : Obligations.SampleWordsDecode := by
  unfold Obligations.SampleWordsDecode
  decide

end Sys2Proof.Laws

namespace Sys2Proof.Machine

open Sys2Proof.Claims Sys2Proof.Laws

/-! ## The encodings of the statements, from the format -/

theorem encodedC_of_encodeA {op : BitVec 5} {code : Word} {mk : Reg → Instr}
    (henc : ∀ c, (mk c).wf = true ∧ encode (mk c) = encodeA op c 0#4 0#4)
    (hcode : encodeA op 0#4 0#4 0#4 = code) : encodedC code mk := by
  have hdec (w c) : decode w = .ok (mk c) ↔ w = encodeA op c 0#4 0#4 := by
    obtain ⟨hwf, hword⟩ := henc c
    rw [decode_eq_ok_iff hwf, hword]
  have hplace (c : Reg) : encodeA op c 0#4 0#4 = encodeA op 0#4 0#4 0#4 ||| place c 20 := by
    rw [encodeA_eq_place]; simp [place]
  subst hcode
  simp only [encodedC, hdec]
  exact ⟨fun w c => by rw [hplace], fun w => encodeA_c_masked_iff⟩

theorem encodedCA_load : encodedCA 0x54000000#32 .load := by
  have hdec (w c a) : decode w = .ok (.load c a) ↔ w = encodeM 0b10100#5 c a 0#4 := decode_eq_ok_iff rfl
  have hcode : encodeM 0b10100#5 0#4 0#4 0#4 = 0x54000000#32 := rfl
  have hplace (c a : Reg) : encodeM 0b10100#5 c a 0#4 = 0x54000000#32 ||| place c 20 ||| place a 16 := by
    rw [encodeM_eq_place, hcode]; simp [place]
  simp only [encodedCA, hdec]
  exact ⟨fun w c a => by rw [hplace], fun w => by rw [← hcode, encodeM_ca_masked_iff]⟩

/-- The words of store: format M with the operands `a` and `b` (30_encoding.md R64). -/
theorem decode_store_iff (w : Word) (a b : Reg) :
    decode w = .ok (.store a b) ↔ w = 0x56000000#32 ||| place a 16 ||| place b 12 := by
  have hdec : decode w = .ok (.store a b) ↔ w = encodeM 0b10110#5 0#4 a b := decode_eq_ok_iff rfl
  have hcode : encodeM 0b10110#5 0#4 0#4 0#4 = 0x56000000#32 := rfl
  rw [hdec, encodeM_eq_place, hcode]
  simp [place]

theorem store_masked_iff (w : Word) : w &&& 0xFFF00FFF#32 = 0x56000000#32 ↔ ∃ a b, decode w = .ok (.store a b) := by
  have hdec (a b) : decode w = .ok (.store a b) ↔ w = encodeM 0b10110#5 0#4 a b := decode_eq_ok_iff rfl
  have hcode : encodeM 0b10110#5 0#4 0#4 0#4 = 0x56000000#32 := rfl
  simp only [hdec]
  rw [← hcode, encodeM_ab_masked_iff]

/-- The words of loadlit: a constant with the signed value of the 16-bit field (30_encoding.md R65, R72). -/
theorem decode_loadlit_iff (w : Word) (c : Reg) (imm : Word) : decode w = .ok (.loadlit c imm) ↔
    ∃ k : BitVec 16, imm.toInt = k.toInt ∧ w = 0x60000000#32 ||| place c 20 ||| place k 0 := by
  have hcode : encodeKI 0#4 0#16 = 0x60000000#32 := rfl
  simp only [decode_eq_ok_loadlit_iff, ← BitVec.toInt_inj, toInt_signExtend16, encodeKI_eq_place c, hcode]

theorem loadlit_masked_iff (w : Word) :
    w &&& 0xFF0F0000#32 = 0x60000000#32 ↔ ∃ c imm, decode w = .ok (.loadlit c imm) := by
  have hcode : encodeKI 0#4 0#16 = 0x60000000#32 := rfl
  rw [← hcode, encodeKI_masked_iff]
  simp [decode_eq_ok_loadlit_iff]

theorem encodedHalf_of_encodeKII (r : BitVec 1) {code : Word} {mk : Reg → BitVec 8 → Instr}
    (henc : ∀ c k, (mk c k).wf = true ∧ encode (mk c k) = encodeKII r c k) (hcode : encodeKII r 0#4 0#8 = code) :
    encodedHalf code mk := by
  have hdec (w c k) : decode w = .ok (mk c k) ↔ w = encodeKII r c k := by
    obtain ⟨hwf, hword⟩ := henc c k
    rw [decode_eq_ok_iff hwf, hword]
  subst hcode
  simp only [encodedHalf, hdec]
  exact ⟨fun w c k => by rw [encodeKII_eq_place], fun w => encodeKII_masked_iff⟩

/-- The words of a jf or jt, from those that decode to it. -/
theorem encodedJump_of_encodeJI {jop : BitVec 2} {cond : Cond} {mk : Word → Instr}
    (hdec : ∀ w target, decode w = .ok (mk target) ↔ destino20Fits target = true ∧ w = encodeJI jop cond target) :
    encodedJump (encodeJI jop cond 0#32) 0xFFF00000#32 20 mk := by
  simp only [encodedJump, hdec]
  refine ⟨fun w target => ?_, fun w => encodeJI_masked_iff⟩
  have hrange : destino20Fits target = true ↔ target.toNat < 2 ^ 20 := destino20Fits_iff
  rw [← hrange]
  refine and_congr_right fun hfits => ?_
  rw [encodeJI_eq_or, zeroExtend20_setWidth20 hfits]

theorem encodedJump_jumpFalse (cond : Cond) : encodedJump (encodeJI 0#2 cond 0#32) 0xFFF00000#32 20 (jumpFalse cond) :=
  encodedJump_of_encodeJI fun _ _ => decode_eq_ok_jumpFalse_iff

theorem encodedJump_jumpTrue (cond : Cond) : encodedJump (encodeJI 1#2 cond 0#32) 0xFFF00000#32 20 (jumpTrue cond) :=
  encodedJump_of_encodeJI fun _ _ => decode_eq_ok_jumpTrue_iff

/-- The word of nop is 0, and no other (30_encoding.md R71). -/
theorem decode_nop_iff (w : Word) : decode w = .ok .nop ↔ w = 0#32 := decode_eq_ok_iff rfl

end Sys2Proof.Machine
end

section
/-! PROOFS. load and store: the three things a load can do and the two a store can do, and the memory behind them
(40_memory_access.md R90 to R92, 20_memory.md R40 to R47). -/

namespace Sys2Proof.Machine

open Sys2Proof.Claims Sys2Proof.Laws

/-- A word has no value where one of its bytes is not listed. -/
theorem readWord_eq_none_iff {m : Memory} {n : Nat} : readWord m n = none ↔ wordListed m n = false := by
  simp [readWord]

/-- A read of an implemented word that was never written in full answers with free bytes and draws once. -/
theorem memRead_unlisted {s : State} {addr : Word} (hi : addr.toNat < s.dmemWords)
    (hw : readWord s.dmem addr.toNat = none) :
    memRead s addr = .ok (readWordOr s.dmem addr.toNat (Config.freeWord s.draws), drawn s) := by
  simp [memRead_of_lt hi, readWord_eq_none_iff.mp hw]

theorem memRead_of_ge {s : State} {addr : Word} (h : s.dmemWords ≤ addr.toNat) :
    memRead s addr = .error (.dataOutOfRange addr) := by
  simp [memRead, dataImplemented, h]

theorem memWrite_of_ge {s : State} {addr : Word} (v : Word) (h : s.dmemWords ≤ addr.toNat) :
    memWrite s addr v = .error (.dataOutOfRange addr) := by
  simp [memWrite, dataImplemented, h]

/-! ## The arms of load and store -/

theorem exec_load_unwritten {c a : Reg} {s : State} (hi : (readReg s a).toNat < s.dmemWords)
    (hw : readWord s.dmem (readReg s a).toNat = none) : exec (.load c a) s =
      .next (advance (writeReg (drawn s) c (readWordOr s.dmem (readReg s a).toNat (Config.freeWord s.draws)))) := by
  rw [exec_load, execLoad, dataAddress, memRead_unlisted hi hw]

theorem exec_load_out_of_range {c a : Reg} {s : State} (h : s.dmemWords ≤ (readReg s a).toNat) :
    exec (.load c a) s = .fault (.dataOutOfRange (readReg s a)) := by
  rw [exec_load, execLoad, dataAddress, memRead_of_ge h]

theorem exec_store_of_lt {a b : Reg} {s : State} (hi : (readReg s a).toNat < s.dmemWords) : exec (.store a b) s =
    .next (advance (setDmem s (writeWord s.dmem (readReg s a).toNat (readReg s b)))) :=
  exec_store_next.mpr ⟨hi, rfl⟩

theorem exec_store_out_of_range {a b : Reg} {s : State} (h : s.dmemWords ≤ (readReg s a).toNat) :
    exec (.store a b) s = .fault (.dataOutOfRange (readReg s a)) := by
  rw [exec_store, execStore, dataAddress, memWrite_of_ge _ h]

/-- A load that completes writes one register of the state it reads in, which has drawn at most once. -/
theorem exec_load_next {c a : Reg} {s t : State} (h : exec (.load c a) s = .next t) :
    ∃ u v, (u = s ∨ u = drawn s) ∧ t = advance (writeReg u c v) := by
  rcases Nat.lt_or_ge (readReg s a).toNat s.dmemWords with hi | hge
  · cases hw : readWord s.dmem (readReg s a).toNat with
    | some v =>
      rw [exec_load_written hi hw] at h
      cases h
      exact ⟨s, v, .inl rfl, rfl⟩
    | none =>
      rw [exec_load_unwritten hi hw] at h
      cases h
      exact ⟨drawn s, _, .inr rfl, rfl⟩
  · rw [exec_load_out_of_range hge] at h
    cases h

/-! ## The obligations about load, store and the memory behind them -/

/-- A constant written to a register is written as the statements say, and RF is as before. -/
theorem wroteAndAdvanced_finishConstant (s : State) (c : Reg) (v : Word) :
    wroteAndAdvanced s c v s.flags (finishConstant s c v) := by
  have hregs : registerWritten s (finishConstant s c v) c v :=
    registerWritten_of_regs (by simp [finishConstant]) (by simp [finishConstant])
  exact ⟨hregs, by simp [finishConstant], by simp [finishConstant], fun a => by simp [finishConstant],
    by simp [programKept, finishConstant], by simp [finishConstant]⟩

/-- Settles O9: by the three things a load can do. -/
theorem loadReadsTheAddressedWord : Obligations.LoadReadsTheAddressedWord := by
  refine ⟨encodedCA_load, fun c a s => ⟨fun hi => ⟨fun v hw => ?_, fun hw => ?_⟩, exec_load_out_of_range⟩⟩
  · exact ⟨_, exec_load_written hi hw, wroteAndAdvanced_finishConstant s c v⟩
  · refine ⟨_, exec_load_unwritten hi hw, registerWritten_of_regs ?_ ?_, ?_⟩
    · exact writeReg_regs_congr (drawn_regs s) (drawn_r0Zero s) c _
    · simp
    · simp [memoryKept, programKept]

/-- Settles O10: by the two things a store can do, and what a word write does inside and outside the word. -/
theorem storeWritesTheAddressedWord : Obligations.StoreWritesTheAddressedWord := by
  refine ⟨⟨decode_store_iff, store_masked_iff⟩, fun a b s => ⟨fun hi => ?_, exec_store_out_of_range⟩⟩
  refine ⟨_, exec_store_of_lt hi, readWord_writeWord_same _ _ _, fun k hk => readByte_writeWord_out _ _ hk, ?_⟩
  simp [registersKept, programKept]

/-- Settles O12: the primitives read what was written last, keep every other word, and fault beyond `DMEM_WORDS`. -/
theorem memoryReadsTheLatestWrite : Obligations.MemoryReadsTheLatestWrite := by
  intro s addr v
  refine ⟨fun hi => ⟨_, memWrite_of_lt v hi, memRead_listed hi (readWord_writeWord_same _ _ _), ?_, ?_⟩,
    fun hi w hw => memRead_listed hi hw, fun hi hw => ⟨_, _, memRead_unlisted hi hw, ?_⟩,
    fun hge => ⟨memRead_of_ge hge, memWrite_of_ge v hge⟩⟩
  · intro other hother
    exact readWord_writeWord_other _ _ fun e => hother (BitVec.eq_of_toNat_eq e)
  · simp [registersKept, programKept]
  · simp [registersKept, programKept]

/-- Byte `k` of a written word is the byte worth `2^(24 - 8k)` (20_memory.md R41). -/
theorem readByte_writeWord_big_endian (m : Memory) (n : Nat) (v : Word) {k : Nat} (hk : k < 4) :
    readByte (writeWord m n v) (4 * n + k) = some (v.extractLsb' (24 - 8 * k) 8) := by
  obtain ⟨h0, h1, h2, h3⟩ := readByte_writeWord_in m n v
  interval_cases k
  · exact h0
  · exact h1
  · exact h2
  · exact h3

/-- Settles O14: a store writes the four bytes of the register, the most significant one at the lowest key. -/
theorem storedWordIsBigEndian : Obligations.StoredWordIsBigEndian := by
  intro a b s t h k hk
  obtain ⟨-, rfl⟩ := exec_store_next.mp h
  refine ⟨_, readByte_writeWord_big_endian s.dmem (readReg s a).toNat (readReg s b) hk, ?_⟩
  rw [BitVec.extractLsb'_toNat, Nat.shiftRight_eq_div_pow]

end Sys2Proof.Machine
end

section
/-! PROOFS. What every instruction that completes changes and leaves unchanged, said once, by one case per instruction; the
whole-machine rules rest on it (10_state.md R22 to R33). -/

namespace Sys2Proof.Machine

open Sys2Proof.Claims Sys2Proof.Laws Sys2Proof.Safety

/-! ## The program and the result register -/

theorem programKept_refl (s : State) : programKept s s := ⟨rfl, rfl, rfl, rfl⟩

theorem programKept_symm {s t : State} (h : programKept s t) : programKept t s := by
  obtain ⟨himem, hiw, hdw, hz⟩ := h
  exact ⟨himem.symm, hiw.symm, hdw.symm, hz.symm⟩

theorem programKept_trans {s t u : State} (hst : programKept s t) (htu : programKept t u) : programKept s u := by
  obtain ⟨himem, hiw, hdw, hz⟩ := hst
  obtain ⟨himem', hiw', hdw', hz'⟩ := htu
  exact ⟨himem'.trans himem, hiw'.trans hiw, hdw'.trans hdw, hz'.trans hz⟩

/-- The state with a value written to the register of the instruction's result, where it has one (10_state.md R23). -/
def writeResult (i : Instr) (s : State) (v : Word) : State :=
  match registerOfResult i with
  | some c => writeReg s c v
  | none => s

theorem writeResult_of_some {i : Instr} {c : Reg} (h : registerOfResult i = some c) (s : State) (v : Word) :
    writeResult i s v = writeReg s c v := by
  simp [writeResult, h]

theorem writeResult_of_none {i : Instr} (h : registerOfResult i = none) (s : State) (v : Word) :
    writeResult i s v = s := by
  simp [writeResult, h]

@[simp] theorem writeResult_r0Zero (i : Instr) (s : State) (v : Word) : (writeResult i s v).r0Zero = s.r0Zero := by
  unfold writeResult; split <;> simp

/-- Everything writing the result does to a register read. -/
theorem readReg_writeResult (i : Instr) (s : State) (v : Word) (r : Reg) : readReg (writeResult i s v) r =
    if isHardwired s r then 0#32 else if registerOfResult i = some r then v else readReg s r := by
  cases h : registerOfResult i with
  | some c => simp only [writeResult_of_some h, readReg_writeReg, Option.some.injEq, eq_comm (a := r)]
  | none =>
    rw [writeResult_of_none h]
    split
    · next hr => exact readReg_hardwired hr
    · simp

/-- A hardwired register's cell is never written by a result. -/
theorem writeResult_regs_zero {s : State} (h : s.r0Zero = true) (i : Instr) (v : Word) :
    (writeResult i s v).regs[0] = s.regs[0] := by
  unfold writeResult
  split
  · exact writeReg_regs_zero h _ v
  · rfl

/-! ## The flags an instruction may change -/

/-- RF goes from `f` to `g` as the table of 10_state.md R28 lists it for the instruction. -/
def flagsListed (i : Instr) (f g : Flags) : Prop :=
  ∀ name, (name ∉ flagsWritten i → flagNamed g name = flagNamed f name)
    ∧ (name ∈ flagsWritten i → isAsl i = false → ∃ b, flagNamed g name = .bit b)
    ∧ (isAsl i = true → flagNamed g name = .unspecified)

theorem flags_ext {f g : Flags} (h : ∀ name, flagNamed f name = flagNamed g name) : f = g := by
  obtain ⟨n, z, c, v⟩ := f
  obtain ⟨n', z', c', v'⟩ := g
  have hn : n = n' := h .neg
  have hz : z = z' := h .zero
  have hc : c = c' := h .carry
  have hv : v = v' := h .overflow
  rw [hn, hz, hc, hv]

/-- An instruction that writes no flag. -/
theorem flagsListed_kept {i : Instr} (hw : flagsWritten i = []) (hasl : isAsl i = false) (f : Flags) :
    flagsListed i f f := by
  simp [flagsListed, hw, hasl]

theorem flagsListed_withNegZero {i : Instr} (hw : flagsWritten i = [.neg, .zero]) (hasl : isAsl i = false) (f : Flags)
    (r : Word) : flagsListed i f (withNegZero f r) := by
  intro name
  cases name <;> simp [hw, hasl, withNegZero, flagNamed]

theorem flagsListed_flagsOfSum {i : Instr} (hw : flagsWritten i = [.neg, .zero, .carry, .overflow])
    (hasl : isAsl i = false) (f : Flags) (sum : AdderResult) : flagsListed i f (flagsOfSum sum) := by
  intro name
  cases name <;> simp [hw, hasl, flagsOfSum, flagNamed]

theorem flagsListed_zeros (c : Reg) (f : Flags) : flagsListed (.zeros c) f (withZeroSet f) := by
  have hasl : isAsl (.zeros c) = false := rfl
  intro name
  cases name <;> simp [hasl, flagsWritten, withZeroSet, flagNamed]

theorem flagsListed_lsl (c a : Reg) (f : Flags) (r : Word) (carry : Bool) :
    flagsListed (.lsl c a) f (withNegZeroCarry f r carry) := by
  have hasl : isAsl (.lsl c a) = false := rfl
  intro name
  cases name <;> simp [hasl, flagsWritten, withNegZeroCarry, withNegZero, flagNamed]

theorem flagsListed_asl (c a : Reg) (f : Flags) : flagsListed (.asl c a) f flagsAfterAsl := by
  have hasl : isAsl (.asl c a) = true := rfl
  intro name
  cases name <;> simp [hasl, flagsWritten, flagsAfterAsl, Config.aslFlags, flagNamed]

/-- Only an instruction of format A has a flag in its row of the table (10_state.md R28, 30_encoding.md R73). -/
theorem group_of_mem_flagsWritten {i : Instr} {name : FlagName} (h : name ∈ flagsWritten i) :
    (rowOf i).pattern.extractLsb' 29 3 = 0b001#3 := by
  cases i
  case load | store | loadlit | lcl | lch | ones | jfNeg | jfZero | jfCarry | jfNegzero | jfTrue | jfOverflow | jtNeg
      | jtZero | jtCarry | jtNegzero | jtTrue | jtOverflow | j | jal | jr | nop => cases h
  all_goals simp [rowOf]

/-! ## The frame of an instruction -/

/-- What an instruction that takes `s` to `t` may have changed: its result register, its flags, the pc, the count of
draws and, if it is store, the data memory. -/
structure Frame (i : Instr) (s t : State) : Prop where
  regs : ∃ v, t.regs = (writeResult i s v).regs
  flags : flagsListed i s.flags t.flags
  pc : isControlTransfer i = false → t.pc = s.pc + 1#32
  dmem : isStore i = false → t.dmem = s.dmem
  program : programKept s t

/-- The end of every instruction that writes a register and flags. -/
theorem frame_advance {i : Instr} {s : State} {c : Reg} {f : Flags} (hc : registerOfResult i = some c)
    (hf : flagsListed i s.flags f) (v : Word) : Frame i s (advance (setFlags (writeReg s c v) f)) where
  regs := ⟨v, by simp [writeResult_of_some hc]⟩
  flags := hf
  pc _ := by simp
  dmem _ := by simp
  program := by simp [programKept]

theorem frame_finishLogic {i : Instr} {s : State} {c : Reg} (hc : registerOfResult i = some c)
    (hw : flagsWritten i = [.neg, .zero]) (hasl : isAsl i = false) (r : Word) : Frame i s (finishLogic s c r) :=
  frame_advance hc (flagsListed_withNegZero hw hasl s.flags r) r

theorem frame_finishSum {i : Instr} {s : State} {c : Reg} (hc : registerOfResult i = some c)
    (hw : flagsWritten i = [.neg, .zero, .carry, .overflow]) (hasl : isAsl i = false) (sum : AdderResult) :
    Frame i s (finishSum s c sum) :=
  frame_advance hc (flagsListed_flagsOfSum hw hasl s.flags sum) sum.result

theorem frame_finishConstant {i : Instr} {s : State} {c : Reg} (hc : registerOfResult i = some c)
    (hw : flagsWritten i = []) (hasl : isAsl i = false) (v : Word) : Frame i s (finishConstant s c v) where
  regs := ⟨v, by simp [finishConstant, writeResult_of_some hc]⟩
  flags := by simpa [finishConstant] using flagsListed_kept hw hasl s.flags
  pc _ := by simp [finishConstant]
  dmem _ := by simp [finishConstant]
  program := by simp [programKept, finishConstant]

theorem frame_load {c a : Reg} {s t : State} (h : exec (.load c a) s = .next t) : Frame (.load c a) s t := by
  obtain ⟨u, v, hu, rfl⟩ := exec_load_next h
  have hframe : Frame (.load c a) u (finishConstant u c v) := frame_finishConstant rfl rfl rfl v
  rcases hu with rfl | rfl
  · exact hframe
  · obtain ⟨⟨v', hregs⟩, hflags, hpc, hdmem, hprogram⟩ := hframe
    exact ⟨⟨v', hregs.trans (writeReg_regs_congr (drawn_regs s) (drawn_r0Zero s) c v')⟩, hflags, hpc, hdmem, hprogram⟩

theorem frame_store {a b : Reg} {s t : State} (h : exec (.store a b) s = .next t) : Frame (.store a b) s t := by
  obtain ⟨-, rfl⟩ := exec_store_next.mp h
  exact ⟨⟨0#32, rfl⟩, flagsListed_kept rfl rfl _, fun _ => rfl, fun hstore => (nomatch hstore), rfl, rfl, rfl, rfl⟩

theorem frame_condJump {i : Instr} (hr : registerOfResult i = none) (hw : flagsWritten i = []) (hasl : isAsl i = false)
    (hj : isControlTransfer i = true) (s : State) (sense : Bool) (cond : Cond) (target : Word) :
    Frame i s (condJump s sense cond target) := by
  obtain ⟨-, hregs, hflags, hdmem, himem, hiw, hdw, hz, -⟩ := condJump_spec s sense cond target
  exact ⟨⟨0#32, by rw [writeResult_of_none hr, hregs]⟩, by rw [hflags]; exact flagsListed_kept hw hasl _,
    fun hn => absurd (hj.symm.trans hn) (by decide), fun _ => hdmem, himem, hiw, hdw, hz⟩

theorem frame_setPc {i : Instr} (hr : registerOfResult i = none) (hw : flagsWritten i = []) (hasl : isAsl i = false)
    (hj : isControlTransfer i = true) (s : State) (target : Word) : Frame i s (setPc s target) where
  regs := ⟨0#32, by rw [writeResult_of_none hr, setPc_regs]⟩
  flags := flagsListed_kept hw hasl s.flags
  pc hn := absurd (hj.symm.trans hn) (by decide)
  dmem _ := setPc_dmem s target
  program := by simp [programKept]

theorem frame_jal (b : Reg) (s : State) :
    Frame (.jal b) s (setPc (writeReg s Config.linkReg (nextPc s)) (readReg s b)) where
  regs := ⟨nextPc s, rfl⟩
  flags := by simpa using flagsListed_kept (i := .jal b) rfl rfl s.flags
  pc hn := by simp [isControlTransfer, rowOf] at hn
  dmem _ := by simp
  program := by simp [programKept]

theorem frame_nop (s : State) : Frame .nop s (advance s) where
  regs := ⟨0#32, rfl⟩
  flags := flagsListed_kept rfl rfl s.flags
  pc _ := advance_pc s
  dmem _ := advance_dmem s
  program := by simp [programKept]

/-- Every instruction that completes has its frame: by the shape its arm of `exec` ends in. -/
theorem exec_frame {i : Instr} {s t : State} (h : exec i s = .next t) : Frame i s t := by
  cases i
  case load => exact frame_load h
  case store => exact frame_store h
  case loadlit | lcl | lch | ones => cases h; exact frame_finishConstant rfl rfl rfl _
  case and | andnota | passa | xor | or | nor | xnor | passnota | ornotb | nand | lsr | asr =>
    cases h; exact frame_finishLogic rfl rfl rfl _
  case add | addinc | inca | subdec | sub | deca => cases h; exact frame_finishSum rfl rfl rfl _
  case zeros c => cases h; exact frame_advance rfl (flagsListed_zeros c _) _
  case lsl c a => cases h; exact frame_advance rfl (flagsListed_lsl c a _ _ _) _
  case asl c a => cases h; exact frame_advance rfl (flagsListed_asl c a _) _
  case jfNeg | jfZero | jfCarry | jfNegzero | jfTrue | jfOverflow | jtNeg | jtZero | jtCarry | jtNegzero | jtTrue
      | jtOverflow => cases h; exact frame_condJump rfl rfl rfl (by simp [isControlTransfer, rowOf]) s _ _ _
  case j | jr => cases h; exact frame_setPc rfl rfl rfl (by simp [isControlTransfer, rowOf]) s _
  case jal b => cases h; exact frame_jal b s
  case nop => cases h; exact frame_nop s

/-! ## The obligations that follow from the frame -/

/-- Settles O39: the register file after an instruction is that of a register write, which R0_ZERO guards. -/
theorem registerZeroIsHardwired : Obligations.RegisterZeroIsHardwired := by
  refine ⟨fun s hz => readReg_hardwired (isHardwired_iff.mpr ⟨hz, rfl⟩), ?_, ?_, fun s v hz => ?_, ?_⟩
  · intro i s t hz h
    obtain ⟨v, hregs⟩ := (exec_frame h).regs
    simp only [hregs, writeResult_regs_zero hz]
  · intro i s t hz hr h
    obtain ⟨v, hregs⟩ := (exec_frame h).regs
    rw [hregs, writeResult_of_some hr, writeReg_hardwired (isHardwired_iff.mpr ⟨hz, rfl⟩)]
  · exact readReg_writeReg_same s v (by simp [isHardwired, hz])
  · intro i s t h
    obtain ⟨-, -, -, hz⟩ := (exec_frame h).program
    exact hz

/-- Settles O41: the flags of the frame. -/
theorem flagsWrittenAreTheListedOnes : Obligations.FlagsWrittenAreTheListedOnes := fun _ _ _ h => (exec_frame h).flags

/-- Settles O43: the data memory of the frame. -/
theorem onlyStoreChangesDataMemory : Obligations.OnlyStoreChangesDataMemory :=
  fun _ _ _ hstore h => (exec_frame h).dmem hstore

/-- Settles O44: the pc of the frame, as a number. -/
theorem pcAdvancesByOneWord : Obligations.PcAdvancesByOneWord := by
  intro i s t hj h
  rw [(exec_frame h).pc hj, BitVec.toNat_add]
  rfl

/-- Settles O13: the instruction between keeps the data memory and `DMEM_WORDS`, so the load reads the stored word. -/
theorem loadAfterStoreReturnsTheStoredWord : Obligations.LoadAfterStoreReturnsTheStoredWord := by
  intro a b c d i s t u hst htu hstore haddr
  obtain ⟨hi, rfl⟩ := exec_store_next.mp hst
  have hdmem := (exec_frame htu).dmem hstore
  obtain ⟨-, -, hsize, -⟩ := (exec_frame htu).program
  have hlt : (readReg u d).toNat < u.dmemWords := by simpa [hsize, haddr] using hi
  have hword : readWord u.dmem (readReg u d).toNat = some (readReg s b) := by
    simp [hdmem, haddr, readWord_writeWord_same]
  exact ⟨_, exec_load_written hlt hword, wroteAndAdvanced_finishConstant u c _⟩

theorem programKept_of_run (k : Nat) {s t : State} (h : Sys2Proof.core.run k s = .next t) : programKept s t := by
  induction k generalizing s with
  | zero => exact run_zero.mp h ▸ programKept_refl s
  | succ k ih =>
    obtain ⟨u, hstep, hrun⟩ := run_succ.mp h
    obtain ⟨w, i, -, -, hexec⟩ := step_next.mp hstep
    exact programKept_trans (exec_frame hexec).program (ih hrun)

/-- Settles O45: each step keeps the program by its frame, so a run does, and a fetch depends on the program alone. -/
theorem noRunChangesTheProgram : Obligations.NoRunChangesTheProgram := by
  intro k s t h
  have hprogram := programKept_of_run k h
  refine ⟨hprogram, fun target => ?_⟩
  obtain ⟨himem, hiw, -, -⟩ := hprogram
  exact fetch_congr rfl himem hiw

theorem eq_store_of_isStore {i : Instr} (h : isStore i = true) : ∃ a b, i = .store a b := by
  cases i
  case store a b => exact ⟨a, b, rfl⟩
  all_goals cases h

/-- The data memory after an instruction: as before, or with one implemented word written. -/
theorem exec_dmem {i : Instr} {s t : State} (h : exec i s = .next t) :
    t.dmem = s.dmem ∨ ∃ n v, n < s.dmemWords ∧ t.dmem = writeWord s.dmem n v := by
  cases hstore : isStore i with
  | false => exact .inl ((exec_frame h).dmem hstore)
  | true =>
    obtain ⟨a, b, rfl⟩ := eq_store_of_isStore hstore
    obtain ⟨hi, rfl⟩ := exec_store_next.mp h
    exact .inr ⟨_, _, hi, rfl⟩

theorem exec_inv {i : Instr} {s t : State} (hs : Inv s) (h : exec i s = .next t) : Inv t := by
  obtain ⟨hr0, hdwf, hiwf, hdimp, hisize, hdsize⟩ := hs
  obtain ⟨v, hregs⟩ := (exec_frame h).regs
  obtain ⟨himem, hiw, hdw, hz⟩ := (exec_frame h).program
  refine ⟨fun hz' => ?_, ?_, himem ▸ hiwf, ?_, hiw ▸ hisize, hdw ▸ hdsize⟩
  · have hs0 : s.r0Zero = true := hz ▸ hz'
    simp only [hregs, writeResult_regs_zero hs0, hr0 hs0]
  · rcases exec_dmem h with hd | ⟨n, w, -, hd⟩
    · exact hd ▸ hdwf
    · exact hd ▸ writeWord_wf n w hdwf
  · intro cell hcell
    rw [hdw]
    rcases exec_dmem h with hd | ⟨n, w, hn, hd⟩
    · exact hdimp cell (hd ▸ hcell)
    · rcases mem_writeWord (hd ▸ hcell) with ⟨-, hle⟩ | hmem
      · omega
      · exact hdimp cell hmem

/-- Settles O46: a step that answers is an instruction, whose frame keeps every part of the invariant. -/
theorem everyStepKeepsTheInvariant : Obligations.EveryStepKeepsTheInvariant := by
  intro s t hs h
  obtain ⟨w, i, -, -, hexec⟩ := step_next.mp h
  exact exec_inv hs hexec

end Sys2Proof.Machine
end

section
/-! PROOFS. What an instruction depends on: the registers it reads through its fields, the flags if it is jf or jt,
the pc, the data memory, the parameters of the run (10_state.md R23, R29); and which instructions can fault (42_alu.md R122). -/

namespace Sys2Proof.Machine

open Sys2Proof.Claims Sys2Proof.Laws

/-! ## Equal inputs and equal outputs -/

/-- Two states in which an instruction finds the same operands. -/
structure SameInputs (i : Instr) (s s' : State) : Prop where
  regs : ∀ r ∈ registersRead i, readReg s' r = readReg s r
  flags : readsFlags i = true → s'.flags = s.flags
  pc : s'.pc = s.pc
  dmem : s'.dmem = s.dmem
  draws : s'.draws = s.draws
  program : programKept s s'

/-- `t` and `t'` are `s` and `s'` with the same results written. -/
structure SameOutputs (i : Instr) (s s' t t' : State) : Prop where
  regs : ∃ v, t.regs = (writeResult i s v).regs ∧ t'.regs = (writeResult i s' v).regs
  flags : ∀ name ∈ flagsWritten i, flagNamed t'.flags name = flagNamed t.flags name
  pc : t'.pc = t.pc
  dmem : t'.dmem = t.dmem
  draws : t'.draws = t.draws

/-- The outcomes of an instruction at `s` and `s'`: the same results, or the same fault. -/
def sameOutcome (i : Instr) (s s' : State) : Prop :=
  (∃ t t', exec i s = .next t ∧ exec i s' = .next t' ∧ SameOutputs i s s' t t')
    ∨ ∃ f, exec i s = .fault f ∧ exec i s' = .fault f

theorem SameInputs.operand {i : Instr} {s s' : State} {a : Reg} (h : SameInputs i s s') (hr : registersRead i = [a]) :
    readReg s' a = readReg s a :=
  h.regs a (by simp [hr])

theorem SameInputs.operands {i : Instr} {s s' : State} {a b : Reg} (h : SameInputs i s s')
    (hr : registersRead i = [a, b]) : readReg s' a = readReg s a ∧ readReg s' b = readReg s b :=
  ⟨h.regs a (by simp [hr]), h.regs b (by simp [hr])⟩

/-! ## The shapes of Operands.lean -/

theorem sameOutputs_advance {i : Instr} {s s' : State} {c : Reg} {v v' : Word} {f f' : Flags} (h : SameInputs i s s')
    (hc : registerOfResult i = some c) (hv : v' = v)
    (hf : ∀ name ∈ flagsWritten i, flagNamed f' name = flagNamed f name) :
    SameOutputs i s s' (advance (setFlags (writeReg s c v) f)) (advance (setFlags (writeReg s' c v') f')) where
  regs := ⟨v, by simp [writeResult_of_some hc, hv]⟩
  flags := hf
  pc := by simp [h.pc]
  dmem := by simp [h.dmem]
  draws := by simp [h.draws]

theorem sameOutputs_finishLogic {i : Instr} {s s' : State} {c : Reg} {r r' : Word} (h : SameInputs i s s')
    (hc : registerOfResult i = some c) (hw : flagsWritten i = [.neg, .zero]) (hr : r' = r) :
    SameOutputs i s s' (finishLogic s c r) (finishLogic s' c r') := by
  refine sameOutputs_advance h hc hr ?_
  simp [hw, hr, withNegZero, flagNamed]

theorem sameOutputs_finishSum {i : Instr} {s s' : State} {c : Reg} {sum sum' : AdderResult} (h : SameInputs i s s')
    (hc : registerOfResult i = some c) (hsum : sum' = sum) :
    SameOutputs i s s' (finishSum s c sum) (finishSum s' c sum') :=
  sameOutputs_advance h hc (hsum ▸ rfl) fun _ _ => hsum ▸ rfl

theorem sameOutputs_finishConstant {i : Instr} {s s' : State} {c : Reg} {v v' : Word} (h : SameInputs i s s')
    (hc : registerOfResult i = some c) (hw : flagsWritten i = []) (hv : v' = v) :
    SameOutputs i s s' (finishConstant s c v) (finishConstant s' c v') where
  regs := ⟨v, by simp [finishConstant, writeResult_of_some hc, hv]⟩
  flags := by simp [hw]
  pc := by simp [finishConstant, h.pc]
  dmem := by simp [finishConstant, h.dmem]
  draws := by simp [finishConstant, h.draws]

theorem holds_congr {s s' : State} (hf : s'.flags = s.flags) (hd : s'.draws = s.draws) (cond : Cond) :
    holds s' cond = holds s cond := by
  cases cond <;> simp [holds, readFlag, hf, hd]

/-- A conditional jump draws once exactly where a flag that its condition names is unspecified (log 5, log 24). -/
theorem condJump_draws (s : State) (sense : Bool) (cond : Cond) (target : Word) :
    (condJump s sense cond target).draws = s.draws + ((condFlags cond).any (flagOpen s)).toNat := by
  have hopen : (condFlags cond).any (fun name => flagNamed s.flags name == .unspecified)
      = (condFlags cond).any (flagOpen s) := rfl
  rw [condJump, afterFlagRead, hopen]
  cases (condFlags cond).any (flagOpen s) <;> simp

theorem flagOpen_congr {s s' : State} (hf : s'.flags = s.flags) : flagOpen s' = flagOpen s := by
  funext name
  simp [flagOpen, hf]

theorem sameOutputs_condJump {i : Instr} {s s' : State} (h : SameInputs i s s') (hr : registerOfResult i = none)
    (hw : flagsWritten i = []) (hreads : readsFlags i = true) (sense : Bool) (cond : Cond) (target : Word) :
    SameOutputs i s s' (condJump s sense cond target) (condJump s' sense cond target) := by
  have hflags := h.flags hreads
  obtain ⟨hpc, hregs, -, hdmem, -⟩ := condJump_spec s sense cond target
  obtain ⟨hpc', hregs', -, hdmem', -⟩ := condJump_spec s' sense cond target
  refine ⟨⟨0#32, ?_, ?_⟩, by simp [hw], ?_, ?_, ?_⟩
  · rw [writeResult_of_none hr, hregs]
  · rw [writeResult_of_none hr, hregs']
  · rw [hpc, hpc', holds_congr hflags h.draws, h.pc]
  · rw [hdmem, hdmem', h.dmem]
  · rw [condJump_draws, condJump_draws, flagOpen_congr hflags, h.draws]

theorem sameOutputs_setPc {i : Instr} {s s' : State} {target target' : Word} (h : SameInputs i s s')
    (hr : registerOfResult i = none) (hw : flagsWritten i = []) (ht : target' = target) :
    SameOutputs i s s' (setPc s target) (setPc s' target') where
  regs := ⟨0#32, by simp [writeResult_of_none hr]⟩
  flags := by simp [hw]
  pc := ht
  dmem := h.dmem
  draws := h.draws

/-! ## load and store -/

theorem sameOutcome_load {c a : Reg} {s s' : State} (h : SameInputs (.load c a) s s') :
    sameOutcome (.load c a) s s' := by
  have ha : readReg s' a = readReg s a := h.operand rfl
  obtain ⟨-, -, hsize, -⟩ := h.program
  rcases Nat.lt_or_ge (readReg s a).toNat s.dmemWords with hi | hge
  · have hi' : (readReg s' a).toNat < s'.dmemWords := by rwa [ha, hsize]
    cases hw : readWord s.dmem (readReg s a).toNat with
    | some v =>
      have hw' : readWord s'.dmem (readReg s' a).toNat = some v := by rwa [ha, h.dmem]
      exact .inl ⟨_, _, exec_load_written hi hw, exec_load_written hi' hw', sameOutputs_finishConstant h rfl rfl rfl⟩
    | none =>
      have hw' : readWord s'.dmem (readReg s' a).toNat = none := by rwa [ha, h.dmem]
      refine .inl ⟨_, _, exec_load_unwritten hi hw, exec_load_unwritten hi' hw',
        ⟨_, writeReg_regs_congr (drawn_regs s) (drawn_r0Zero s) c _, ?_⟩, ?_, ?_, ?_, ?_⟩
      · rw [ha, h.dmem, h.draws]
        exact writeReg_regs_congr (drawn_regs s') (drawn_r0Zero s') c _
      · simp [flagsWritten]
      · simp [h.pc]
      · simp [h.dmem]
      · simp [h.draws]
  · have hge' : s'.dmemWords ≤ (readReg s' a).toNat := by rwa [ha, hsize]
    exact .inr ⟨_, exec_load_out_of_range hge, ha ▸ exec_load_out_of_range hge'⟩

theorem sameOutcome_store {a b : Reg} {s s' : State} (h : SameInputs (.store a b) s s') :
    sameOutcome (.store a b) s s' := by
  obtain ⟨ha, hb⟩ := h.operands rfl
  obtain ⟨-, -, hsize, -⟩ := h.program
  rcases Nat.lt_or_ge (readReg s a).toNat s.dmemWords with hi | hge
  · have hi' : (readReg s' a).toNat < s'.dmemWords := by rwa [ha, hsize]
    refine .inl ⟨_, _, exec_store_of_lt hi, exec_store_of_lt hi', ⟨0#32, rfl, rfl⟩, ?_, ?_, ?_, ?_⟩
    · simp [flagsWritten]
    · simp [h.pc]
    · simp [ha, hb, h.dmem]
    · simp [h.draws]
  · have hge' : s'.dmemWords ≤ (readReg s' a).toNat := by rwa [ha, hsize]
    exact .inr ⟨_, exec_store_out_of_range hge, ha ▸ exec_store_out_of_range hge'⟩

/-! ## Every instruction -/

/-- An instruction that finds the same operands has the same outcome: by the shape its arm of `exec` ends in. -/
theorem exec_congr {i : Instr} {s s' : State} (h : SameInputs i s s') : sameOutcome i s s' := by
  cases i
  case load => exact sameOutcome_load h
  case store => exact sameOutcome_store h
  case loadlit | ones => exact .inl ⟨_, _, rfl, rfl, sameOutputs_finishConstant h rfl rfl rfl⟩
  case lcl | lch => exact .inl ⟨_, _, rfl, rfl, sameOutputs_finishConstant h rfl rfl (by rw [h.operand rfl])⟩
  case zeros =>
    exact .inl ⟨_, _, rfl, rfl, sameOutputs_advance h rfl rfl (by simp [flagsWritten, withZeroSet, flagNamed])⟩
  case passa | passnota | lsr | asr =>
    exact .inl ⟨_, _, rfl, rfl, sameOutputs_finishLogic h rfl rfl (by rw [h.operand rfl])⟩
  case and | andnota | xor | or | nor | xnor | ornotb | nand =>
    obtain ⟨ha, hb⟩ := h.operands rfl
    exact .inl ⟨_, _, rfl, rfl, sameOutputs_finishLogic h rfl rfl (by rw [ha, hb])⟩
  case inca | deca => exact .inl ⟨_, _, rfl, rfl, sameOutputs_finishSum h rfl (by rw [h.operand rfl])⟩
  case add | addinc | subdec | sub =>
    obtain ⟨ha, hb⟩ := h.operands rfl
    exact .inl ⟨_, _, rfl, rfl, sameOutputs_finishSum h rfl (by rw [ha, hb])⟩
  case lsl c a =>
    have ha : readReg s' a = readReg s a := h.operand rfl
    refine .inl ⟨_, _, rfl, rfl, sameOutputs_advance h rfl (by rw [ha]) ?_⟩
    simp [flagsWritten, withNegZeroCarry, withNegZero, flagNamed, ha]
  case asl => exact .inl ⟨_, _, rfl, rfl, sameOutputs_advance h rfl (by rw [h.operand rfl]) fun _ _ => rfl⟩
  case jfNeg | jfZero | jfCarry | jfNegzero | jfTrue | jfOverflow | jtNeg | jtZero | jtCarry | jtNegzero | jtTrue
      | jtOverflow =>
    exact .inl ⟨_, _, rfl, rfl, sameOutputs_condJump h rfl rfl (by simp [readsFlags, rowOf]) _ _ _⟩
  case j => exact .inl ⟨_, _, rfl, rfl, sameOutputs_setPc h rfl rfl rfl⟩
  case jr => exact .inl ⟨_, _, rfl, rfl, sameOutputs_setPc h rfl rfl (h.operand rfl)⟩
  case jal b =>
    have hb : readReg s' b = readReg s b := h.operand rfl
    refine .inl ⟨_, _, rfl, rfl, ⟨nextPc s, rfl, ?_⟩, by simp [flagsWritten], hb, ?_, ?_⟩
    · simp only [nextPc, h.pc]; rfl
    · simp [h.dmem]
    · simp [h.draws]
  case nop =>
    refine .inl ⟨_, _, rfl, rfl, ⟨0#32, rfl, rfl⟩, by simp [flagsWritten], ?_, h.dmem, h.draws⟩
    simp [h.pc]

/-! ## Registers (R23) -/

theorem sameInputs_writeReg {i : Instr} {r : Reg} (h : r ∉ registersRead i) (s : State) (v : Word) :
    SameInputs i s (writeReg s r v) where
  regs q hq := readReg_writeReg_other s v fun e => h (e ▸ hq)
  flags _ := writeReg_flags s r v
  pc := writeReg_pc s r v
  dmem := writeReg_dmem s r v
  draws := writeReg_draws s r v
  program := by simp [programKept]

/-- Equal results and equal flags before give equal flags after: the others are kept. -/
theorem flags_eq_of_sameOutputs {i : Instr} {s s' t t' : State} (h : SameOutputs i s s' t t')
    (ht : exec i s = .next t) (ht' : exec i s' = .next t') (hf : s'.flags = s.flags) : t'.flags = t.flags := by
  refine flags_ext fun name => ?_
  by_cases hname : name ∈ flagsWritten i
  · exact h.flags name hname
  · obtain ⟨hkept, -⟩ := (exec_frame ht).flags name
    obtain ⟨hkept', -⟩ := (exec_frame ht').flags name
    rw [hkept hname, hkept' hname, hf]

/-- The program is the same after as before, in both states. -/
theorem programKept_of_exec {i : Instr} {s s' t t' : State} (h : programKept s s') (ht : exec i s = .next t)
    (ht' : exec i s' = .next t') : programKept t t' :=
  programKept_trans (programKept_symm (exec_frame ht).program) (programKept_trans h (exec_frame ht').program)

/-- A register read after an instruction: the result in its register, every other as before. -/
theorem readReg_of_regs {i : Instr} {s t : State} {v : Word} (hregs : t.regs = (writeResult i s v).regs)
    (hz : t.r0Zero = s.r0Zero) (r : Reg) : readReg t r =
      if isHardwired s r then 0#32 else if registerOfResult i = some r then v else readReg s r := by
  rw [readReg_congr hregs (by simpa using hz), readReg_writeResult]

theorem readReg_of_not_result {i : Instr} {s t : State} {r : Reg} (h : exec i s = .next t)
    (hr : registerOfResult i ≠ some r) : readReg t r = readReg s r := by
  obtain ⟨v, hregs⟩ := (exec_frame h).regs
  obtain ⟨-, -, -, hz⟩ := (exec_frame h).program
  rw [readReg_of_regs hregs hz, if_neg hr]
  split
  · next hr0 => rw [readReg_hardwired hr0]
  · rfl

theorem sameBut_writeReg {i : Instr} {r : Reg} (h : r ∉ registersRead i) (s : State) (v : Word) :
    sameBut r (registerOfResult i == some r) (exec i s) (exec i (writeReg s r v)) := by
  have hin := sameInputs_writeReg h s v
  rcases exec_congr hin with ⟨t, t', ht, ht', hout⟩ | hfault
  · obtain ⟨w, hregs, hregs'⟩ := hout.regs
    obtain ⟨-, -, -, hz⟩ := (exec_frame ht).program
    obtain ⟨-, -, -, hz'⟩ := (exec_frame ht').program
    refine .inl ⟨t, t', ht, ht', hout.pc, flags_eq_of_sameOutputs hout ht ht' (writeReg_flags s r v),
      fun a => by rw [hout.dmem], programKept_of_exec hin.program ht ht', hout.draws, fun q hq => ?_, fun hr => ?_⟩
    · rw [readReg_of_regs hregs hz, readReg_of_regs hregs' hz', isHardwired_writeReg, readReg_writeReg_other s v hq]
    · have hres : registerOfResult i = some r := by simpa using hr
      rw [readReg_of_regs hregs hz, readReg_of_regs hregs' hz', isHardwired_writeReg, if_pos hres, if_pos hres]
  · exact .inr hfault

/-- Settles O40: the frame for the registers written, equal outcomes for the registers not read. -/
theorem registersAreReachedThroughFieldsOnly : Obligations.RegistersAreReachedThroughFieldsOnly :=
  ⟨fun _ _ _ _ h hr => readReg_of_not_result h hr, fun _ s _ v h => sameBut_writeReg h s v⟩

/-! ## Flags (R29) -/

theorem sameInputs_setFlags {i : Instr} (h : readsFlags i = false) (s : State) (f : Flags) :
    SameInputs i s (setFlags s f) where
  regs q _ := readReg_setFlags s f q
  flags hreads := absurd (hreads.symm.trans h) (by decide)
  pc := rfl
  dmem := rfl
  draws := rfl
  program := by simp [programKept]

theorem writeResult_setFlags_regs (i : Instr) (s : State) (f : Flags) (v : Word) :
    (writeResult i (setFlags s f) v).regs = (writeResult i s v).regs := by
  unfold writeResult
  split
  · exact writeReg_regs_congr (setFlags_regs s f) (setFlags_r0Zero s f) _ v
  · rfl

/-- Settles O42: equal outcomes for the flags not read, the frame for the flags written. -/
theorem onlyConditionalJumpsReadFlags : Obligations.OnlyConditionalJumpsReadFlags := by
  refine ⟨fun i s f hreads => ?_, fun i s t h hne => ?_⟩
  · have hin := sameInputs_setFlags hreads s f
    rcases exec_congr hin with ⟨t, t', ht, ht', hout⟩ | hfault
    · obtain ⟨v, hregs, hregs'⟩ := hout.regs
      have hsame : t'.regs = t.regs := by rw [hregs, hregs', writeResult_setFlags_regs]
      exact .inl ⟨t, t', ht, ht', hsame, hout.pc, hout.dmem, programKept_of_exec hin.program ht ht', hout.draws,
        hout.flags⟩
    · exact .inr hfault
  · obtain ⟨name, hname⟩ : ∃ name, flagNamed t.flags name ≠ flagNamed s.flags name := by
      by_contra hall
      exact hne (flags_ext fun name => by_contra fun hname => hall ⟨name, hname⟩)
    obtain ⟨hkept, -⟩ := (exec_frame h).flags name
    exact group_of_mem_flagsWritten (by_contra fun hnot => hname (hkept hnot))

/-! ## Faults (42_alu.md R122, 60_exceptions.md R151) -/

/-- Settles O8: load and store by their addresses, every other arm of `exec` is a next state. -/
theorem onlyLoadAndStoreFault : Obligations.OnlyLoadAndStoreFault := by
  intro i s
  cases i
  case load c a =>
    rcases Nat.lt_or_ge (readReg s a).toNat s.dmemWords with hi | hge
    · cases hw : readWord s.dmem (readReg s a).toNat with
      | some v => exact .inl ⟨_, exec_load_written hi hw⟩
      | none => exact .inl ⟨_, exec_load_unwritten hi hw⟩
    · exact .inr (.inl ⟨c, a, rfl, hge, exec_load_out_of_range hge⟩)
  case store a b =>
    rcases Nat.lt_or_ge (readReg s a).toNat s.dmemWords with hi | hge
    · exact .inl ⟨_, exec_store_of_lt hi⟩
    · exact .inr (.inr ⟨a, b, rfl, hge, exec_store_out_of_range hge⟩)
  all_goals exact .inl ⟨_, rfl⟩

end Sys2Proof.Machine
end

section
/-! PROOFS. Constants, the adder as integer arithmetic, and the shifts (41_constants.md R95 to R98, 42_alu.md R100 to
R126, 44_nop_halt.md R143). -/

namespace Sys2Proof.Machine

open Sys2Proof.Claims Sys2Proof.Laws

/-! ## Constants -/

/-- Settles O15: the words of format K-I, and an arm that ends in a constant. -/
theorem loadlitLoadsTheSignedConstant : Obligations.LoadlitLoadsTheSignedConstant :=
  ⟨decode_loadlit_iff, loadlit_masked_iff, fun c imm s => ⟨_, rfl, wroteAndAdvanced_finishConstant s c imm⟩⟩

/-- What lcl computes, byte by byte (R96). -/
theorem lowByteReplaced (x : Word) (k : BitVec 8) :
    k.setWidth 32 ||| (x &&& 0x0000FF00#32) = 0#16 ++ x.extractLsb' 8 8 ++ k := by
  refine BitVec.eq_of_getLsbD_eq fun i hi => ?_
  simp only [BitVec.getLsbD_or, BitVec.getLsbD_and, BitVec.getLsbD_setWidth, BitVec.getLsbD_append,
    BitVec.getLsbD_extractLsb']
  interval_cases i <;> simp

/-- What lch computes, byte by byte (R97). -/
theorem highByteReplaced (x : Word) (k : BitVec 8) :
    (k.setWidth 32 <<< 8) ||| (x &&& 0x000000FF#32) = 0#16 ++ k ++ x.extractLsb' 0 8 := by
  refine BitVec.eq_of_getLsbD_eq fun i hi => ?_
  simp only [BitVec.getLsbD_or, BitVec.getLsbD_and, BitVec.getLsbD_setWidth, BitVec.getLsbD_append,
    BitVec.getLsbD_extractLsb', BitVec.getLsbD_shiftLeft]
  interval_cases i <;> simp

theorem exec_lcl (c : Reg) (k : BitVec 8) (s : State) :
    exec (.lcl c k) s = .next (finishConstant s c (0#16 ++ (readReg s c).extractLsb' 8 8 ++ k)) := by
  rw [← lowByteReplaced]; rfl

theorem exec_lch (c : Reg) (k : BitVec 8) (s : State) :
    exec (.lch c k) s = .next (finishConstant s c (0#16 ++ k ++ (readReg s c).extractLsb' 0 8)) := by
  rw [← highByteReplaced]; rfl

/-- Settles O16: the words of format K-II with the bit `R` clear and set, and the two values byte by byte. -/
theorem halfConstantsReplaceOneByte : Obligations.HalfConstantsReplaceOneByte :=
  ⟨encodedHalf_of_encodeKII 0#1 (fun _ _ => ⟨rfl, rfl⟩) rfl, encodedHalf_of_encodeKII 1#1 (fun _ _ => ⟨rfl, rfl⟩) rfl,
    fun c k s => ⟨_, exec_lcl c k s, wroteAndAdvanced_finishConstant s c _⟩,
    fun c k s => ⟨_, exec_lch c k s, wroteAndAdvanced_finishConstant s c _⟩⟩

/-- A constant written to a register that is no zero register is what the register then holds. -/
theorem readReg_finishConstant {s : State} {c : Reg} (h : ¬isZeroRegister s c) (v : Word) :
    readReg (finishConstant s c v) c = v := by
  rw [finishConstant, readReg_advance, readReg_writeReg_same s v (isHardwired_eq_false_iff.mpr h)]

theorem not_isZeroRegister_finishConstant {s : State} {c : Reg} (h : ¬isZeroRegister s c) (v : Word) :
    ¬isZeroRegister (finishConstant s c v) c := by
  simpa [isZeroRegister, finishConstant] using h

theorem low_byte_append (h : BitVec 24) (k : BitVec 8) : (h ++ k).extractLsb' 0 8 = k :=
  BitVec.extractLsb'_append_eq_right

theorem middle_byte_append (k l : BitVec 8) : (0#16 ++ k ++ l).extractLsb' 8 8 = k := by
  refine BitVec.eq_of_getLsbD_eq fun i hi => ?_
  simp only [BitVec.getLsbD_append, BitVec.getLsbD_extractLsb']
  interval_cases i <;> simp

/-- Settles O17: the second of the two instructions keeps the byte that the first one wrote. -/
theorem lclAndLchBuildASixteenBitConstant : Obligations.LclAndLchBuildASixteenBitConstant := by
  intro c lo hi s hz
  have hz' (v) : ¬isZeroRegister (finishConstant s c v) c := not_isZeroRegister_finishConstant hz v
  refine ⟨⟨_, exec_lcl c lo s, _, exec_lch c hi _, (readReg_finishConstant (hz' _) _).trans ?_⟩,
    ⟨_, exec_lch c hi s, _, exec_lcl c lo _, (readReg_finishConstant (hz' _) _).trans ?_⟩⟩
  · rw [readReg_finishConstant hz, low_byte_append]
  · rw [readReg_finishConstant hz, middle_byte_append]

/-- Settles O20: the words of format A with one operand, zeros with its one flag, ones as a constant. -/
theorem zerosAndOnesWriteConstants : Obligations.ZerosAndOnesWriteConstants :=
  ⟨encodedC_of_encodeA (op := 0b00000#5) (fun _ => ⟨rfl, rfl⟩) rfl,
    encodedC_of_encodeA (op := 0b01011#5) (fun _ => ⟨rfl, rfl⟩) rfl,
    fun c s => ⟨_, rfl, wroteAndAdvanced_advance s c 0#32 (withZeroSet s.flags)⟩,
    fun c s => ⟨_, rfl, wroteAndAdvanced_finishConstant s c 1#32⟩⟩

/-! ## The adder (00_scope.md R16) -/

/-- Settles O21: add, with its operation code, ends in an adder result without carry input. -/
theorem addIsTheAdder : Obligations.AddIsTheAdder :=
  adderRule_of_finishSum 0b01100#5 (fun _ _ _ => ⟨rfl, rfl⟩) rfl fun _ _ _ _ => rfl

/-- The full adder: the result and the carry are the exact unsigned sum. -/
theorem addWithCarry_toNat (x y : Word) (cin : Bool) : (addWithCarry x y cin).result.toNat
    + 2 ^ 32 * (addWithCarry x y cin).carry.toNat = x.toNat + y.toNat + cin.toNat := by
  have hx := x.isLt
  have hy := y.isLt
  have hc := cin.toNat_le
  simp only [addWithCarry, BitVec.toNat_ofNat]
  by_cases h : 2 ^ 32 ≤ x.toNat + y.toNat + cin.toNat
  · rw [decide_eq_true h, Bool.toNat_true]; omega
  · rw [decide_eq_false h, Bool.toNat_false]; omega

/-- The result is the exact signed sum modulo 2^32. -/
theorem addWithCarry_result (x y : Word) (cin : Bool) :
    (addWithCarry x y cin).result = BitVec.ofInt 32 (x.toInt + y.toInt + cin.toInt) := by
  have hcin : BitVec.ofNat 32 cin.toNat = BitVec.ofInt 32 cin.toInt := by cases cin <;> rfl
  simp only [addWithCarry, BitVec.ofNat_add, BitVec.ofInt_add, BitVec.ofInt_toInt, BitVec.ofNat_toNat,
    BitVec.setWidth_eq, hcin]

/-- A sum is its own narrowing to 32 bits exactly where it is a signed 32-bit number. -/
theorem ne_bmod_iff (n : Int) : n ≠ n.bmod (2 ^ 32) ↔ n < -2147483648 ∨ 2147483647 < n := by
  have hlow : -2147483648 ≤ n.bmod (2 ^ 32) := Int.le_bmod (by decide)
  have hhigh : n.bmod (2 ^ 32) < 2147483648 := Int.bmod_lt (by decide)
  constructor
  · intro hne
    by_contra hin
    exact hne (Int.bmod_eq_of_le (by omega) (by omega)).symm
  · omega

/-- Overflow is set exactly where the exact signed sum is no signed 32-bit number (R16, D22). -/
theorem addWithCarry_overflow (x y : Word) (cin : Bool) : (addWithCarry x y cin).overflow =
    decide (x.toInt + y.toInt + cin.toInt < -2147483648 ∨ 2147483647 < x.toInt + y.toInt + cin.toInt) := by
  have hdef : (addWithCarry x y cin).overflow
      = decide (x.toInt + y.toInt + cin.toInt ≠ (addWithCarry x y cin).result.toInt) := rfl
  rw [hdef, addWithCarry_result, BitVec.toInt_ofInt, decide_eq_decide]
  exact ne_bmod_iff _

theorem addWithCarry_carry (x y : Word) (cin : Bool) :
    (addWithCarry x y cin).carry = decide (2 ^ 32 ≤ x.toNat + y.toNat + cin.toNat) := rfl

theorem toInt_not_word (y : Word) : (~~~y).toInt = -y.toInt - 1 := by
  have hy := y.isLt
  rw [BitVec.toInt_eq_toNat_cond, BitVec.toInt_eq_toNat_cond, BitVec.toNat_not]
  split <;> split <;> omega

/-- An adder result as integer arithmetic, from the exact sum and the carry as numbers. -/
theorem exactly_finishSum (s : State) (c : Reg) {x y : Word} {cin : Bool} {exact : Int} {carry : Prop} [Decidable carry]
    (hexact : x.toInt + y.toInt + cin.toInt = exact) (hcarry : 2 ^ 32 ≤ x.toNat + y.toNat + cin.toNat ↔ carry) :
    exactly s c exact (decide carry) (finishSum s c (addWithCarry x y cin)) := by
  obtain ⟨hregs, hflags, -⟩ := wroteAndAdvanced_finishSum s c (addWithCarry x y cin)
  rw [addWithCarry_result, hexact] at hregs
  refine ⟨hregs, ?_, ?_⟩
  · rw [hflags, allFour, addWithCarry_carry, decide_eq_decide.mpr hcarry]
  · rw [hflags, allFour, addWithCarry_overflow, hexact]

/-- Settles O23: each of the six instructions is the adder on operands whose sums are the exact ones. -/
theorem adderInstructionsAreExactArithmetic : Obligations.AdderInstructionsAreExactArithmetic := by
  intro c a b s
  have ha := (readReg s a).isLt
  have hb := (readReg s b).isLt
  have hnot : (~~~(readReg s b)).toNat = 2 ^ 32 - 1 - (readReg s b).toNat := BitVec.toNat_not
  have hnotInt := toInt_not_word (readReg s b)
  have hones : (0xFFFFFFFF#32 : Word).toInt = -1 := by decide
  have hzero : readReg s a ≠ 0#32 ↔ (readReg s a).toNat ≠ 0 := BitVec.toNat_ne_iff_ne.symm
  refine ⟨⟨_, rfl, exactly_finishSum s c (by simp) (by simp)⟩, ⟨_, rfl, exactly_finishSum s c (by simp) (by simp)⟩,
    ⟨_, rfl, exactly_finishSum s c (by simp) (by simp)⟩, ⟨_, rfl, exactly_finishSum s c ?_ ?_⟩,
    ⟨_, rfl, exactly_finishSum s c ?_ ?_⟩, ⟨_, rfl, exactly_finishSum s c ?_ ?_⟩⟩
  · rw [hnotInt, Bool.toInt_false]; omega
  · rw [hnot, Bool.toNat_false]; omega
  · rw [hnotInt, Bool.toInt_true]; omega
  · rw [hnot, Bool.toNat_true]; omega
  · rw [hones, Bool.toInt_false]; omega
  · rw [hzero, BitVec.toNat_ofNat, Bool.toNat_false]; omega

/-! ## Two-word sums (42_alu.md R113) -/

theorem toNat_append_words (h l : Word) : (h ++ l).toNat = 2 ^ 32 * h.toNat + l.toNat := by
  rw [BitVec.toNat_append, ← Nat.shiftLeft_add_eq_or_of_lt l.isLt, Nat.shiftLeft_eq, Nat.mul_comm]

/-- Settles O24: two full adders, the carry of the low one fed into the high one. -/
theorem carryChainsTwoWordAddition : Obligations.CarryChainsTwoWordAddition := by
  intro xl xh yl yh lo hi
  have hlo : lo.result.toNat + 2 ^ 32 * lo.carry.toNat = xl.toNat + yl.toNat := addWithCarry_toNat xl yl false
  have hhi : hi.result.toNat + 2 ^ 32 * hi.carry.toNat = xh.toNat + yh.toNat + lo.carry.toNat :=
    addWithCarry_toNat xh yh lo.carry
  have hlolt := lo.result.isLt
  have hhilt := hi.result.isLt
  constructor
  · refine BitVec.eq_of_toNat_eq ?_
    rw [BitVec.toNat_add, toNat_append_words, toNat_append_words, toNat_append_words]
    omega
  · rw [toNat_append_words, toNat_append_words]
    cases hcarry : hi.carry
    · rw [hcarry, Bool.toNat_false] at hhi
      exact (decide_eq_false (by omega)).symm
    · rw [hcarry, Bool.toNat_true] at hhi
      exact (decide_eq_true (by omega)).symm

/-! ## Compare (44_nop_halt.md R143) -/

/-- A subtraction: the difference modulo 2^32, carry where there is no borrow, overflow where the exact difference is out
of range (R116, R125). -/
theorem addWithCarry_sub (x y : Word) : (addWithCarry x (~~~y) true).result = x - y
    ∧ (addWithCarry x (~~~y) true).carry = decide (y.toNat ≤ x.toNat)
    ∧ (addWithCarry x (~~~y) true).overflow
        = decide (x.toInt - y.toInt < -2147483648 ∨ 2147483647 < x.toInt - y.toInt) := by
  have hexact : x.toInt + (~~~y).toInt + true.toInt = x.toInt - y.toInt := by
    rw [toInt_not_word, Bool.toInt_true]; omega
  have hy := y.isLt
  refine ⟨?_, ?_, ?_⟩
  · refine BitVec.eq_of_toInt_eq ?_
    rw [addWithCarry_result, hexact, BitVec.toInt_ofInt, BitVec.toInt_sub]
  · rw [addWithCarry_carry, decide_eq_decide, BitVec.toNat_not, Bool.toNat_true]
    omega
  · rw [addWithCarry_overflow, hexact]

/-- The sign of a difference differs from its overflow exactly where the exact difference is negative. -/
theorem msb_sub_ne_overflow_iff (x y : Word) :
    (x - y).msb ≠ decide (x.toInt - y.toInt < -2147483648 ∨ 2147483647 < x.toInt - y.toInt)
      ↔ x.toInt < y.toInt := by
  have hx : -2147483648 ≤ x.toInt := BitVec.le_toInt x
  have hx' : x.toInt < 2147483648 := BitVec.toInt_lt
  have hy : -2147483648 ≤ y.toInt := BitVec.le_toInt y
  have hy' : y.toInt < 2147483648 := BitVec.toInt_lt
  have hdiff : (x - y).toInt = (x.toInt - y.toInt).bmod (2 ^ 32) := BitVec.toInt_sub
  rw [BitVec.msb_eq_toInt, hdiff, ne_eq, decide_eq_decide, Int.bmod_def]
  split <;> omega

/-! ## Shifts (42_alu.md R118 to R121) -/

theorem toNat_movedLeft (x : Word) : (movedLeft x).toNat = 2 * x.toNat % 2 ^ 32 := by
  obtain ⟨hleft, -⟩ := moved_eq x
  rw [hleft, BitVec.toNat_shiftLeft, Nat.shiftLeft_eq, Nat.mul_comm, Nat.pow_one]

theorem shiftedOutLeft_eq (x : Word) : shiftedOutLeft x = decide (2 ^ 31 ≤ x.toNat) := by
  obtain ⟨-, -, -, hout⟩ := moved_eq x
  rw [hout, ← BitVec.msb_eq_getLsbD_last x, BitVec.msb_eq_decide]

theorem toNat_movedRight (x : Word) : (movedRight x).toNat = x.toNat / 2 := by
  obtain ⟨-, hright, -⟩ := moved_eq x
  rw [hright, BitVec.toNat_ushiftRight, Nat.shiftRight_eq_div_pow, Nat.pow_one]

theorem msb_movedRight (x : Word) : (movedRight x).msb = false := by
  have hx := x.isLt
  rw [BitVec.msb_eq_decide, toNat_movedRight, decide_eq_false_iff_not]
  omega

theorem toInt_movedRightArith (x : Word) : (movedRightArith x).toInt = x.toInt / 2 := by
  obtain ⟨-, -, harith, -⟩ := moved_eq x
  rw [harith, BitVec.toInt_sshiftRight, Int.shiftRight_eq_div_pow]
  rfl

/-- Settles O25: lsl, with its operation code, writes the value moved left and the bit shifted out. -/
theorem logicalShiftLeftDoubles : Obligations.LogicalShiftLeftDoubles := by
  refine ⟨encodedCA_of_encodeA (op := 0b10010#5) (fun _ _ => ⟨rfl, rfl⟩) rfl, fun c a s =>
    ⟨movedLeft (readReg s a), toNat_movedLeft _, _, rfl, ?_⟩⟩
  rw [withNegZeroCarry, withNegZero_eq_negZero, shiftedOutLeft_eq]
  exact wroteAndAdvanced_advance s c _ _

/-- Settles O26: lsr and asr, with their operation codes, end in logic results; a logical right shift clears the sign. -/
theorem rightShiftsHalve : Obligations.RightShiftsHalve := by
  refine ⟨encodedCA_of_encodeA (op := 0b10011#5) (fun _ _ => ⟨rfl, rfl⟩) rfl,
    encodedCA_of_encodeA (op := 0b10100#5) (fun _ _ => ⟨rfl, rfl⟩) rfl, fun c a s =>
    ⟨movedRight (readReg s a), toNat_movedRight _, _, rfl, ?_⟩, fun c a s =>
    ⟨movedRightArith (readReg s a), toInt_movedRightArith _, _, rfl, wroteAndAdvanced_finishLogic s c _⟩⟩
  rw [← msb_movedRight (readReg s a)]
  exact wroteAndAdvanced_finishLogic s c _

/-- Settles O27: asl, with its operation code, writes the value of lsl and leaves every flag unspecified. -/
theorem arithmeticShiftLeftLeavesFlagsOpen : Obligations.ArithmeticShiftLeftLeavesFlagsOpen :=
  ⟨encodedCA_of_encodeA (op := 0b10101#5) (fun _ _ => ⟨rfl, rfl⟩) rfl, fun c a s =>
    ⟨movedLeft (readReg s a), toNat_movedLeft _, _, rfl, wroteAndAdvanced_advance s c _ flagsAfterAsl⟩⟩

end Sys2Proof.Machine
end

section
/-! PROOFS. The conditional jumps, call and return, nop, compare, and the end of a run (43_control_transfer.md R130 to
R137, 44_nop_halt.md R140 to R143). -/

namespace Sys2Proof.Machine

open Sys2Proof.Claims Sys2Proof.Laws Sys2Proof.Safety

/-! ## The conditional jumps -/

theorem exec_jumpFalse (cond : Cond) (target : Word) (s : State) :
    exec (jumpFalse cond target) s = .next (condJump s false cond target) := by
  cases cond <;> rfl

theorem exec_jumpTrue (cond : Cond) (target : Word) (s : State) :
    exec (jumpTrue cond target) s = .next (condJump s true cond target) := by
  cases cond <;> rfl

/-- The model's conditions are those of the statements (R130). -/
theorem holds_eq_conditionHolds (s : State) (cond : Cond) : holds s cond = conditionHolds s cond := by
  cases cond <;> rfl

/-- A conditional jump sets the pc and, where a flag of its condition is unspecified, draws; nothing else. -/
theorem jumped_condJump (s : State) (sense : Bool) (cond : Cond) (target : Word) :
    jumped s (if holds s cond = sense then target else s.pc + 1#32) ((condFlags cond).any (flagOpen s))
      (condJump s sense cond target) := by
  obtain ⟨hpc, hregs, hflags, hdmem, himem, hiw, hdw, hz, -⟩ := condJump_spec s sense cond target
  exact ⟨readReg_congr hregs hz, hflags, hpc, fun a => by rw [hdmem], ⟨himem, hiw, hdw, hz⟩,
    condJump_draws s sense cond target⟩

theorem jumpFalseRule_jumpFalse (cond : Cond) {drew : State → Bool}
    (hdrew : ∀ s, drew s = (condFlags cond).any (flagOpen s)) :
    jumpFalseRule (encodeJI 0#2 cond 0#32) (jumpFalse cond) (fun s => conditionHolds s cond) drew := by
  refine ⟨encodedJump_jumpFalse cond, fun target s => ⟨_, exec_jumpFalse cond target s, ?_⟩⟩
  have hpc : (if conditionHolds s cond = true then s.pc + 1#32 else target)
      = if holds s cond = false then target else s.pc + 1#32 := by
    rw [holds_eq_conditionHolds]
    cases conditionHolds s cond <;> rfl
  rw [hpc, hdrew]
  exact jumped_condJump s false cond target

theorem jumpTrueRule_jumpTrue (cond : Cond) {drew : State → Bool}
    (hdrew : ∀ s, drew s = (condFlags cond).any (flagOpen s)) :
    jumpTrueRule (encodeJI 1#2 cond 0#32) (jumpTrue cond) (fun s => conditionHolds s cond) drew := by
  refine ⟨encodedJump_jumpTrue cond, fun target s => ⟨_, exec_jumpTrue cond target s, ?_⟩⟩
  simp only [← holds_eq_conditionHolds, hdrew]
  exact jumped_condJump s true cond target

/-- Settles O29: one shape for the six conditions. -/
theorem jumpFalseTestsTheStoredFlags : Obligations.JumpFalseTestsTheStoredFlags :=
  ⟨jumpFalseRule_jumpFalse .neg (by simp [condFlags]), jumpFalseRule_jumpFalse .zero (by simp [condFlags]),
    jumpFalseRule_jumpFalse .carry (by simp [condFlags]), jumpFalseRule_jumpFalse .negzero (by simp [condFlags]),
    jumpFalseRule_jumpFalse .true (by simp [condFlags]), jumpFalseRule_jumpFalse .overflow (by simp [condFlags])⟩

/-- Settles O30: the same shape with the sense reversed. -/
theorem jumpTrueTestsTheStoredFlags : Obligations.JumpTrueTestsTheStoredFlags :=
  ⟨jumpTrueRule_jumpTrue .neg (by simp [condFlags]), jumpTrueRule_jumpTrue .zero (by simp [condFlags]),
    jumpTrueRule_jumpTrue .carry (by simp [condFlags]), jumpTrueRule_jumpTrue .negzero (by simp [condFlags]),
    jumpTrueRule_jumpTrue .true (by simp [condFlags]), jumpTrueRule_jumpTrue .overflow (by simp [condFlags])⟩

/-- Where every flag is unspecified, a conditional jump goes to its target or behind it, and draws once. -/
theorem condJump_of_flags_open {t : State} (hopen : ∀ name, flagNamed t.flags name = .unspecified) (sense : Bool)
    (cond : Cond) (target : Word) : ((condJump t sense cond target).pc = target
      ∨ (condJump t sense cond target).pc = t.pc + 1#32) ∧ (condJump t sense cond target).draws = t.draws + 1 := by
  obtain ⟨hpc, -⟩ := condJump_spec t sense cond target
  have hdrew : (condFlags cond).any (flagOpen t) = true := by cases cond <;> simp [condFlags, flagOpen, hopen]
  refine ⟨?_, by rw [condJump_draws, hdrew, Bool.toNat_true]⟩
  rw [hpc]
  exact ite_eq_or_eq _ _ _

/-- Settles O31: asl leaves every flag unspecified and the pc behind it. -/
theorem jumpsCompleteAfterArithmeticShiftLeft : Obligations.JumpsCompleteAfterArithmeticShiftLeft := by
  intro c a s t h cond target
  cases h
  have hopen (name) : flagNamed flagsAfterAsl name = .unspecified := by cases name <;> rfl
  have hjump (sense) := condJump_of_flags_open
    (t := advance (setFlags (writeReg s c (movedLeft (readReg s a))) flagsAfterAsl)) hopen sense cond target
  simp only [advance_pc, advance_draws, setFlags_pc, setFlags_draws, writeReg_pc, writeReg_draws, BitVec.add_assoc]
    at hjump
  exact ⟨⟨_, exec_jumpFalse cond target _, hjump false⟩, ⟨_, exec_jumpTrue cond target _, hjump true⟩⟩

/-! ## Call, return, nop -/

theorem exec_jal (b : Reg) (s : State) :
    exec (.jal b) s = .next (setPc (writeReg s Config.linkReg (nextPc s)) (readReg s b)) := rfl

/-- Settles O34: the words of jal (format J-III, the bit `R` clear), and its arm as a register write and a jump. -/
theorem jumpAndLinkSavesTheReturnAddress : Obligations.JumpAndLinkSavesTheReturnAddress := by
  refine ⟨encodedB_of_encodeJR 0#1 (fun _ => ⟨rfl, rfl⟩) rfl, fun b s => ⟨_, exec_jal b s, ?_, ?_⟩⟩
  · exact registerWritten_of_regs rfl (by simp)
  · simp [memoryKept, programKept]

/-- Settles O35: r15 holds the link after jal, and jr jumps to it. -/
theorem returnGoesBehindTheCall : Obligations.ReturnGoesBehindTheCall := by
  intro b s t u h hlink
  cases h
  have hhard : isHardwired s Config.linkReg = false := by simp [isHardwired, Config.linkReg]
  have ht : readReg (setPc (writeReg s Config.linkReg (nextPc s)) (readReg s b)) Config.linkReg = nextPc s := by
    rw [readReg_setPc, readReg_writeReg_same s _ hhard]
  exact ⟨_, exec_jr 15#4 u, hlink.trans ht⟩

/-- Settles O36: nop is a jump to the next address. -/
theorem nopOnlyAdvances : Obligations.NopOnlyAdvances :=
  ⟨decode_nop_iff, fun s => ⟨_, rfl, jumped_setPc s (nextPc s)⟩⟩

/-! ## Taken transfers and the delay slots (R136) -/

/-- With no delay slot, the target is reached where the pc is the target. -/
theorem reachesAfterDelaySlots_of_pc {t : State} {target : Word} (h : t.pc = target) :
    reachesAfterDelaySlots target t := ⟨t, rfl, h⟩

/-- Settles O51: each taken transfer leaves its target in the pc, and `BRANCH_DELAY_SLOTS` instructions are none. -/
theorem takenJumpsReachTheirTargetAfterTheDelaySlots : Obligations.TakenJumpsReachTheirTargetAfterTheDelaySlots := by
  refine fun s => ⟨fun target => ⟨_, exec_j target s, reachesAfterDelaySlots_of_pc rfl⟩,
    fun b => ⟨_, exec_jal b s, reachesAfterDelaySlots_of_pc rfl⟩,
    fun b => ⟨_, exec_jr b s, reachesAfterDelaySlots_of_pc rfl⟩,
    fun cond target hcond => ⟨_, exec_jumpFalse cond target s, reachesAfterDelaySlots_of_pc ?_⟩,
    fun cond target hcond => ⟨_, exec_jumpTrue cond target s, reachesAfterDelaySlots_of_pc ?_⟩⟩
  · obtain ⟨hpc, -⟩ := condJump_spec s false cond target
    rw [hpc, if_pos ((holds_eq_conditionHolds s cond).trans hcond)]
  · obtain ⟨hpc, -⟩ := condJump_spec s true cond target
    rw [hpc, if_pos ((holds_eq_conditionHolds s cond).trans hcond)]

/-! ## Compare (44_nop_halt.md R143) -/

/-- A sub to a hardwired r0 changes only the flags and the pc. -/
theorem exec_sub_r0 {s : State} (hz : s.r0Zero = true) (a b : Reg) : exec (.sub 0#4 a b) s =
    .next (advance (setFlags s (flagsOfSum (addWithCarry (readReg s a) (~~~(readReg s b)) true)))) := by
  have hsub : exec (.sub 0#4 a b) s =
      .next (finishSum s 0#4 (addWithCarry (readReg s a) (~~~(readReg s b)) true)) := rfl
  rw [hsub, finishSum, writeReg_hardwired (isHardwired_iff.mpr ⟨hz, rfl⟩)]

theorem zeroOf_sub (x y : Word) : zeroOf (x - y) = decide (x = y) := by
  rw [zeroOf, beq_eq_decide, decide_eq_decide, BitVec.sub_eq_iff_eq_add, BitVec.zero_add]

/-- Settles O28: zero, carry and neg with overflow after the subtraction are the three comparisons. -/
theorem subtractToRegisterZeroCompares : Obligations.SubtractToRegisterZeroCompares := by
  intro a b target s hz
  obtain ⟨hresult, hcarry, hoverflow⟩ := addWithCarry_sub (readReg s a) (readReg s b)
  refine ⟨_, exec_sub_r0 hz a b, fun r => by simp, ⟨_, exec_jumpTrue .zero target _, ?_⟩,
    ⟨_, exec_jumpTrue .carry target _, ?_⟩, _, _, rfl, rfl, ?_⟩
  · obtain ⟨hpc, -⟩ := condJump_spec
      (advance (setFlags s (flagsOfSum (addWithCarry (readReg s a) (~~~(readReg s b)) true)))) true .zero target
    rw [hpc]
    simp [holds, readFlag, flagNamed, flagsOfSum, hresult, zeroOf_sub, BitVec.add_assoc]
  · obtain ⟨hpc, -⟩ := condJump_spec
      (advance (setFlags s (flagsOfSum (addWithCarry (readReg s a) (~~~(readReg s b)) true)))) true .carry target
    rw [hpc]
    simp [holds, readFlag, flagNamed, flagsOfSum, hcarry, BitVec.add_assoc]
  · rw [hresult, hoverflow, negOf_eq_msb]
    exact msb_sub_ne_overflow_iff _ _

/-! ## The end of a run (44_nop_halt.md R142) -/

/-- A run is a shorter run and the rest of it. -/
theorem run_add (k m : Nat) {s u : State} : Sys2Proof.core.run (k + m) s = .next u ↔
    ∃ t : State, Sys2Proof.core.run k s = .next t ∧ Sys2Proof.core.run m t = .next u := by
  induction k generalizing s with
  | zero =>
    rw [Nat.zero_add]
    exact ⟨fun h => ⟨s, run_zero.mpr rfl, h⟩, fun ⟨t, hs, ht⟩ => run_zero.mp hs ▸ ht⟩
  | succ k ih =>
    rw [Nat.add_right_comm]
    constructor
    · intro h
      obtain ⟨v, hstep, hrest⟩ := run_succ.mp h
      obtain ⟨t, hk, hm⟩ := ih.mp hrest
      exact ⟨t, run_succ.mpr ⟨v, hstep, hk⟩, hm⟩
    · rintro ⟨t, hk, hm⟩
      obtain ⟨v, hstep, hk⟩ := run_succ.mp hk
      exact run_succ.mpr ⟨v, hstep, ih.mpr ⟨t, hk, hm⟩⟩

/-- A run that has halted stays where it is, so a longer run from the same state ends there too. -/
theorem eq_of_halted_of_le {k m : Nat} {s t u : State} (hkm : k ≤ m) (ht : runs k s t) (hhalt : halted t = true)
    (hu : runs m s u) : t = u := by
  obtain ⟨d, rfl⟩ := Nat.exists_eq_add_of_le hkm
  obtain ⟨t', ht', hrest⟩ := (run_add k d).mp hu
  have hsame : t' = t := Host.Outcome.next.inj (ht'.symm.trans ht)
  rw [hsame, run_of_step_self (step_of_halted hhalt) d] at hrest
  exact Host.Outcome.next.inj hrest

/-- Settles O38: a run that has halted stays there, so of two runs the longer one ends where the shorter one does. -/
theorem runsEndInOneHaltedState : Obligations.RunsEndInOneHaltedState := by
  refine ⟨fun s => halted_iff, ?_, fun s f hfault => ?_⟩
  · rintro s t u ⟨k, ht, hhalt⟩ ⟨m, hu, hhalt'⟩
    rcases Nat.le_total k m with hkm | hmk
    · exact eq_of_halted_of_le hkm ht hhalt hu
    · exact (eq_of_halted_of_le hmk hu hhalt' ht).symm
  · by_contra hne
    have hnext := step_of_halted (Bool.not_eq_false _ ▸ hne)
    exact nomatch hfault.symm.trans hnext

end Sys2Proof.Machine
end

section
/-! PROOFS. The opcode table: the decoder against the masks and matches of spec/opcode_table.json (30_encoding.md R76,
R82). -/

namespace Sys2Proof.Laws

open Sys2Proof.Claims Sys2Proof.Machine

/-! ## Every encoding matches its row (30_encoding.md R76) -/

theorem isMatch_encode (i : Instr) : (rowOf i).isMatch (encode i) = true :=
  match i with
  | .load c a => MatchesTableRow.load c a
  | .store a b => MatchesTableRow.store a b
  | .loadlit c imm => MatchesTableRow.loadlit c imm
  | .lcl c k => MatchesTableRow.lcl c k
  | .lch c k => MatchesTableRow.lch c k
  | .zeros c => MatchesTableRow.zeros c
  | .and c a b => MatchesTableRow.and c a b
  | .andnota c a b => MatchesTableRow.andnota c a b
  | .passa c a => MatchesTableRow.passa c a
  | .xor c a b => MatchesTableRow.xor c a b
  | .or c a b => MatchesTableRow.or c a b
  | .nor c a b => MatchesTableRow.nor c a b
  | .xnor c a b => MatchesTableRow.xnor c a b
  | .passnota c a => MatchesTableRow.passnota c a
  | .ornotb c a b => MatchesTableRow.ornotb c a b
  | .nand c a b => MatchesTableRow.nand c a b
  | .ones c => MatchesTableRow.ones c
  | .add c a b => MatchesTableRow.add c a b
  | .addinc c a b => MatchesTableRow.addinc c a b
  | .inca c a => MatchesTableRow.inca c a
  | .subdec c a b => MatchesTableRow.subdec c a b
  | .sub c a b => MatchesTableRow.sub c a b
  | .deca c a => MatchesTableRow.deca c a
  | .lsl c a => MatchesTableRow.lsl c a
  | .lsr c a => MatchesTableRow.lsr c a
  | .asr c a => MatchesTableRow.asr c a
  | .asl c a => MatchesTableRow.asl c a
  | .jfNeg t => MatchesTableRow.jfNeg t
  | .jfZero t => MatchesTableRow.jfZero t
  | .jfCarry t => MatchesTableRow.jfCarry t
  | .jfNegzero t => MatchesTableRow.jfNegzero t
  | .jfTrue t => MatchesTableRow.jfTrue t
  | .jfOverflow t => MatchesTableRow.jfOverflow t
  | .jtNeg t => MatchesTableRow.jtNeg t
  | .jtZero t => MatchesTableRow.jtZero t
  | .jtCarry t => MatchesTableRow.jtCarry t
  | .jtNegzero t => MatchesTableRow.jtNegzero t
  | .jtTrue t => MatchesTableRow.jtTrue t
  | .jtOverflow t => MatchesTableRow.jtOverflow t
  | .j t => MatchesTableRow.j t
  | .jal b => MatchesTableRow.jal b
  | .jr b => MatchesTableRow.jr b
  | .nop => MatchesTableRow.nop

theorem isMatch_of_decode {w : Word} {i : Instr} (h : decode w = .ok i) : (rowOf i).isMatch w = true :=
  encode_of_decode h ▸ isMatch_encode i

theorem isMatch_iff {row : TableRow} {w : Word} : row.isMatch w = true ↔ w &&& row.mask = row.pattern := by
  rw [TableRow.isMatch, beq_iff_eq]

/-! ## Every word that matches a row decodes to an instruction of the row -/

/-- The word is an instruction of the row. -/
def decodesTo (row : TableRow) (w : Word) : Prop := ∃ i, decode w = .ok i ∧ rowOf i = row

theorem decodesTo_of_one {α : Type} {mk : α → Instr} {row : TableRow} {w : Word}
    (h : ∃ x, decode w = .ok (mk x)) (hrow : ∀ x, rowOf (mk x) = row) : decodesTo row w := by
  obtain ⟨x, hx⟩ := h
  exact ⟨_, hx, hrow x⟩

theorem decodesTo_of_two {α β : Type} {mk : α → β → Instr} {row : TableRow} {w : Word}
    (h : ∃ x y, decode w = .ok (mk x y)) (hrow : ∀ x y, rowOf (mk x y) = row) : decodesTo row w := by
  obtain ⟨x, h⟩ := h
  exact decodesTo_of_one h (hrow x)

theorem decodesTo_of_three {α β γ : Type} {mk : α → β → γ → Instr} {row : TableRow} {w : Word}
    (h : ∃ x y z, decode w = .ok (mk x y z)) (hrow : ∀ x y z, rowOf (mk x y z) = row) : decodesTo row w := by
  obtain ⟨x, h⟩ := h
  exact decodesTo_of_two h (hrow x)

/-- Every row, by the mask that the instruction's rule prints. -/
theorem decodesTo_of_isMatch (i : Instr) {w : Word} (h : (rowOf i).isMatch w = true) : decodesTo (rowOf i) w := by
  have hw := isMatch_iff.mp h
  obtain ⟨⟨-, hload⟩, -⟩ := loadReadsTheAddressedWord
  obtain ⟨⟨-, hlcl⟩, ⟨-, hlch⟩, -⟩ := halfConstantsReplaceOneByte
  obtain ⟨⟨-, hzeros⟩, ⟨-, hones⟩, -⟩ := zerosAndOnesWriteConstants
  obtain ⟨⟨⟨-, hand⟩, -⟩, ⟨⟨-, handnota⟩, -⟩, ⟨⟨-, hxor⟩, -⟩, ⟨⟨-, hor⟩, -⟩, ⟨⟨-, hnor⟩, -⟩, ⟨⟨-, hxnor⟩, -⟩,
    ⟨⟨-, hornotb⟩, -⟩, ⟨⟨-, hnand⟩, -⟩⟩ := logicInstructionsAreBitwise
  obtain ⟨⟨⟨-, hpassa⟩, -⟩, ⟨⟨-, hpassnota⟩, -⟩⟩ := passInstructionsCopyOrComplement
  obtain ⟨⟨-, hadd⟩, -⟩ := addIsTheAdder
  obtain ⟨⟨⟨-, haddinc⟩, -⟩, ⟨⟨-, hinca⟩, -⟩, ⟨⟨-, hsubdec⟩, -⟩, ⟨⟨-, hsub⟩, -⟩, ⟨⟨-, hdeca⟩, -⟩⟩ :=
    otherAdderInstructionsAreTheAdder
  obtain ⟨⟨-, hlsl⟩, -⟩ := logicalShiftLeftDoubles
  obtain ⟨⟨-, hlsr⟩, ⟨-, hasr⟩, -⟩ := rightShiftsHalve
  obtain ⟨⟨-, hasl⟩, -⟩ := arithmeticShiftLeftLeavesFlagsOpen
  obtain ⟨⟨-, hj⟩, -⟩ := jumpGoesToItsTarget
  obtain ⟨⟨-, hjal⟩, -⟩ := jumpAndLinkSavesTheReturnAddress
  obtain ⟨⟨-, hjr⟩, -⟩ := jumpRegisterGoesToTheRegister
  have hjf (cond) : w &&& 0xFFF00000#32 = encodeJI 0#2 cond 0#32 ↔ ∃ t, decode w = .ok (jumpFalse cond t) := by
    obtain ⟨-, hmask⟩ := encodedJump_jumpFalse cond
    exact hmask w
  have hjt (cond) : w &&& 0xFFF00000#32 = encodeJI 1#2 cond 0#32 ↔ ∃ t, decode w = .ok (jumpTrue cond t) := by
    obtain ⟨-, hmask⟩ := encodedJump_jumpTrue cond
    exact hmask w
  cases i
  case load => exact decodesTo_of_two ((hload w).mp hw) (fun _ _ => rfl)
  case store => exact decodesTo_of_two ((store_masked_iff w).mp hw) (fun _ _ => rfl)
  case loadlit => exact decodesTo_of_two ((loadlit_masked_iff w).mp hw) (fun _ _ => rfl)
  case lcl => exact decodesTo_of_two ((hlcl w).mp hw) (fun _ _ => rfl)
  case lch => exact decodesTo_of_two ((hlch w).mp hw) (fun _ _ => rfl)
  case zeros => exact decodesTo_of_one ((hzeros w).mp hw) (fun _ => rfl)
  case and => exact decodesTo_of_three ((hand w).mp hw) (fun _ _ _ => rfl)
  case andnota => exact decodesTo_of_three ((handnota w).mp hw) (fun _ _ _ => rfl)
  case passa => exact decodesTo_of_two ((hpassa w).mp hw) (fun _ _ => rfl)
  case xor => exact decodesTo_of_three ((hxor w).mp hw) (fun _ _ _ => rfl)
  case or => exact decodesTo_of_three ((hor w).mp hw) (fun _ _ _ => rfl)
  case nor => exact decodesTo_of_three ((hnor w).mp hw) (fun _ _ _ => rfl)
  case xnor => exact decodesTo_of_three ((hxnor w).mp hw) (fun _ _ _ => rfl)
  case passnota => exact decodesTo_of_two ((hpassnota w).mp hw) (fun _ _ => rfl)
  case ornotb => exact decodesTo_of_three ((hornotb w).mp hw) (fun _ _ _ => rfl)
  case nand => exact decodesTo_of_three ((hnand w).mp hw) (fun _ _ _ => rfl)
  case ones => exact decodesTo_of_one ((hones w).mp hw) (fun _ => rfl)
  case add => exact decodesTo_of_three ((hadd w).mp hw) (fun _ _ _ => rfl)
  case addinc => exact decodesTo_of_three ((haddinc w).mp hw) (fun _ _ _ => rfl)
  case inca => exact decodesTo_of_two ((hinca w).mp hw) (fun _ _ => rfl)
  case subdec => exact decodesTo_of_three ((hsubdec w).mp hw) (fun _ _ _ => rfl)
  case sub => exact decodesTo_of_three ((hsub w).mp hw) (fun _ _ _ => rfl)
  case deca => exact decodesTo_of_two ((hdeca w).mp hw) (fun _ _ => rfl)
  case lsl => exact decodesTo_of_two ((hlsl w).mp hw) (fun _ _ => rfl)
  case lsr => exact decodesTo_of_two ((hlsr w).mp hw) (fun _ _ => rfl)
  case asr => exact decodesTo_of_two ((hasr w).mp hw) (fun _ _ => rfl)
  case asl => exact decodesTo_of_two ((hasl w).mp hw) (fun _ _ => rfl)
  case jfNeg => exact decodesTo_of_one ((hjf .neg).mp hw) (fun _ => rfl)
  case jfZero => exact decodesTo_of_one ((hjf .zero).mp hw) (fun _ => rfl)
  case jfCarry => exact decodesTo_of_one ((hjf .carry).mp hw) (fun _ => rfl)
  case jfNegzero => exact decodesTo_of_one ((hjf .negzero).mp hw) (fun _ => rfl)
  case jfTrue => exact decodesTo_of_one ((hjf .true).mp hw) (fun _ => rfl)
  case jfOverflow => exact decodesTo_of_one ((hjf .overflow).mp hw) (fun _ => rfl)
  case jtNeg => exact decodesTo_of_one ((hjt .neg).mp hw) (fun _ => rfl)
  case jtZero => exact decodesTo_of_one ((hjt .zero).mp hw) (fun _ => rfl)
  case jtCarry => exact decodesTo_of_one ((hjt .carry).mp hw) (fun _ => rfl)
  case jtNegzero => exact decodesTo_of_one ((hjt .negzero).mp hw) (fun _ => rfl)
  case jtTrue => exact decodesTo_of_one ((hjt .true).mp hw) (fun _ => rfl)
  case jtOverflow => exact decodesTo_of_one ((hjt .overflow).mp hw) (fun _ => rfl)
  case j => exact decodesTo_of_one ((hj w).mp hw) (fun _ => rfl)
  case jal => exact decodesTo_of_one ((hjal w).mp hw) (fun _ => rfl)
  case jr => exact decodesTo_of_one ((hjr w).mp hw) (fun _ => rfl)
  case nop =>
    have hzero : w = 0#32 := BitVec.and_allOnes.symm.trans hw
    exact ⟨.nop, (decode_nop_iff w).mpr hzero, rfl⟩

/-- A word matches a row of the table exactly when it decodes to an instruction of the row. -/
theorem isMatch_iff_decodesTo {row : TableRow} (hrow : row ∈ opcodeTable) (w : Word) :
    row.isMatch w = true ↔ decodesTo row w := by
  obtain ⟨i, -, rfl⟩ := List.mem_map.mp hrow
  refine ⟨decodesTo_of_isMatch i, ?_⟩
  rintro ⟨i', hdecode, hsame⟩
  exact hsame ▸ isMatch_of_decode hdecode

/-- Settles O4: the decoder answers one instruction at most, so two rows that match one word are the same. -/
theorem decodeAgreesWithOpcodeTable : Obligations.DecodeAgreesWithOpcodeTable := by
  refine ⟨rfl, fun w row hrow => isMatch_iff_decodesTo hrow w, fun w row hrow row' hrow' hw hw' => ?_⟩
  obtain ⟨i, hdecode, rfl⟩ := (isMatch_iff_decodesTo hrow w).mp hw
  obtain ⟨i', hdecode', rfl⟩ := (isMatch_iff_decodesTo hrow' w).mp hw'
  rw [Except.ok.inj (hdecode.symm.trans hdecode')]

end Sys2Proof.Laws
end

section
/-! PROOFS. The illegal words: the decoder against the list of 30_encoding.md R77 and the must-be-zero bits of R76. -/

namespace Sys2Proof.Laws

open Sys2Proof.Claims

/-! ## The fields of a word as the numbers that the list of R77 is written in -/

theorem shiftRight_29_eq (w : Word) : (w >>> 29).toNat = (fieldGrp w).toNat := by
  have hw := w.isLt
  rw [fieldGrp, BitVec.extractLsb'_toNat, BitVec.toNat_ushiftRight, Nat.shiftRight_eq_div_pow]
  omega

theorem shiftRight_24_eq (w : Word) : (w >>> 24).toNat % 32 = (fieldOp w).toNat := by
  rw [fieldOp, BitVec.extractLsb'_toNat, BitVec.toNat_ushiftRight]

theorem shiftRight_20_eq (w : Word) : (w >>> 20).toNat % 16 = (fieldCond w).toNat := by
  rw [fieldCond, BitVec.extractLsb'_toNat, BitVec.toNat_ushiftRight]

theorem fieldOp_div_8 (w : Word) : (fieldOp w).toNat / 8 = (fieldJop w).toNat := by
  rw [fieldOp, fieldJop, BitVec.extractLsb'_toNat, BitVec.extractLsb'_toNat, Nat.shiftRight_eq_div_pow,
    Nat.shiftRight_eq_div_pow]
  omega

/-! ## Must-be-zero bits as fields (R76) -/

/-- The bits of the field of `n` bits from bit `k` upward. -/
def fieldMask (k n : Nat) : Word := (BitVec.allOnes n).setWidth 32 <<< k

theorem and_fieldMask_eq_zero_iff {w : Word} {k n : Nat} : w &&& fieldMask k n = 0#32 ↔ w.extractLsb' k n = 0#n := by
  constructor
  · intro h
    refine BitVec.eq_of_getLsbD_eq fun i hi => ?_
    have hbit : (w &&& fieldMask k n).getLsbD (k + i) = (0#32).getLsbD (k + i) := by rw [h]
    by_cases hlt : k + i < 32
    · simpa [fieldMask, hi, hlt] using hbit
    · simp [hi, BitVec.getLsbD_of_ge w (k + i) (by omega)]
  · intro h
    refine BitVec.eq_of_getLsbD_eq fun i hi => ?_
    have hbit : (w.extractLsb' k n).getLsbD (i - k) = (0#n).getLsbD (i - k) := by rw [h]
    by_cases hki : k ≤ i
    · by_cases hn : i - k < n
      · have hw : w.getLsbD i = false := by simpa [hn, Nat.add_sub_cancel' hki] using hbit
        rw [BitVec.getLsbD_and, hw, Bool.false_and, BitVec.getLsbD_zero]
      · simp [fieldMask, hn]
    · simp [fieldMask, show i < k by omega]

theorem and_or_eq_zero_iff {w m m' : Word} : w &&& (m ||| m') = 0#32 ↔ w &&& m = 0#32 ∧ w &&& m' = 0#32 := by
  rw [BitVec.and_or_distrib_left, BitVec.or_eq_zero_iff]

theorem and_mask_c (w : Word) : w &&& 0x000FFFFF#32 = 0#32 ↔ fieldA w = 0#4 ∧ fieldB w = 0#4 ∧ fieldLow w = 0#12 := by
  have hmask : 0x000FFFFF#32 = fieldMask 16 4 ||| (fieldMask 12 4 ||| fieldMask 0 12) := by decide
  simp only [hmask, and_or_eq_zero_iff, and_fieldMask_eq_zero_iff, fieldA, fieldB, fieldLow]

theorem and_mask_ca (w : Word) : w &&& 0x0000FFFF#32 = 0#32 ↔ fieldB w = 0#4 ∧ fieldLow w = 0#12 := by
  have hmask : 0x0000FFFF#32 = fieldMask 12 4 ||| fieldMask 0 12 := by decide
  simp only [hmask, and_or_eq_zero_iff, and_fieldMask_eq_zero_iff, fieldB, fieldLow]

theorem and_mask_cab (w : Word) : w &&& 0x00000FFF#32 = 0#32 ↔ fieldLow w = 0#12 := by
  have hmask : 0x00000FFF#32 = fieldMask 0 12 := by decide
  rw [hmask, and_fieldMask_eq_zero_iff, fieldLow]

theorem and_mask_ab (w : Word) : w &&& 0x00F00FFF#32 = 0#32 ↔ fieldC w = 0#4 ∧ fieldLow w = 0#12 := by
  have hmask : 0x00F00FFF#32 = fieldMask 20 4 ||| fieldMask 0 12 := by decide
  simp only [hmask, and_or_eq_zero_iff, and_fieldMask_eq_zero_iff, fieldC, fieldLow]

theorem and_mask_loadlit (w : Word) : w &&& 0x1F0F0000#32 = 0#32 ↔ fieldOp w = 0#5 ∧ fieldA w = 0#4 := by
  have hmask : 0x1F0F0000#32 = fieldMask 24 5 ||| fieldMask 16 4 := by decide
  simp only [hmask, and_or_eq_zero_iff, and_fieldMask_eq_zero_iff, fieldOp, fieldA]

theorem and_mask_half (w : Word) : w &&& 0x0F0FFF00#32 = 0#32 ↔ fieldHalfHigh w = 0#4 ∧ fieldHalfMid w = 0#12 := by
  have hmask : 0x0F0FFF00#32 = fieldMask 24 4 ||| fieldMask 8 12 := by decide
  simp only [hmask, and_or_eq_zero_iff, and_fieldMask_eq_zero_iff, fieldHalfHigh, fieldHalfMid]

theorem and_mask_jump (w : Word) : w &&& 0x07000000#32 = 0#32 ↔ fieldJumpHigh w = 0#3 := by
  have hmask : 0x07000000#32 = fieldMask 24 3 := by decide
  rw [hmask, and_fieldMask_eq_zero_iff, fieldJumpHigh]

theorem and_mask_register_jump (w : Word) :
    w &&& 0x03FF0FFF#32 = 0#32 ↔ fieldJumpMid w = 0#10 ∧ fieldLow w = 0#12 := by
  have hmask : 0x03FF0FFF#32 = fieldMask 16 10 ||| fieldMask 0 12 := by decide
  simp only [hmask, and_or_eq_zero_iff, and_fieldMask_eq_zero_iff, fieldJumpMid, fieldLow]

/-! ## The legal words of each group -/

/-- A word the list of R77 does not name, in its fields. -/
theorem not_isIllegalWord_iff (w : Word) : ¬isIllegalWord w ↔
    (fieldGrp w).toNat ≠ 6 ∧ (fieldGrp w).toNat ≠ 7 ∧ ((fieldGrp w).toNat = 0 → w = 0#32)
      ∧ ((fieldGrp w).toNat = 1 → (fieldOp w).toNat < 22)
      ∧ ((fieldGrp w).toNat = 2 → (fieldOp w).toNat = 20 ∨ (fieldOp w).toNat = 22)
      ∧ ((fieldGrp w).toNat = 5 → (fieldJop w).toNat ≤ 1 → (fieldCond w).toNat < 6)
      ∧ w &&& mustBeZeroBits w = 0#32 := by
  simp only [isIllegalWord, shiftRight_29_eq, shiftRight_24_eq, shiftRight_20_eq, fieldOp_div_8, ne_eq, not_or, not_and,
    not_not, not_le]
  tauto

theorem mustBeZeroBits_eq (w : Word) : mustBeZeroBits w =
    if (fieldGrp w).toNat = 1 then
      if (fieldOp w).toNat ∈ [0, 11] then 0x000FFFFF#32
      else if (fieldOp w).toNat ∈ [3, 8, 14, 17, 18, 19, 20, 21] then 0x0000FFFF#32
      else 0x00000FFF#32
    else if (fieldGrp w).toNat = 2 then
      if (fieldOp w).toNat = 20 then 0x0000FFFF#32 else 0x00F00FFF#32
    else if (fieldGrp w).toNat = 3 then 0x1F0F0000#32
    else if (fieldGrp w).toNat = 4 then 0x0F0FFF00#32
    else if (fieldGrp w).toNat = 5 then
      if (fieldJop w).toNat = 3 then 0x03FF0FFF#32 else 0x07000000#32
    else 0#32 := by
  simp only [mustBeZeroBits, shiftRight_29_eq, shiftRight_24_eq, fieldOp_div_8]

theorem decodeAlu_legal_iff {w : Word} (hgrp : fieldGrp w = 1#3) : (∃ i, decodeAlu w = .ok i) ↔ ¬isIllegalWord w := by
  rw [not_isIllegalWord_iff, mustBeZeroBits_eq]
  unfold decodeAlu
  split
  case h_23 =>
    -- the 22 assigned codes are excluded one by one
    have hop : 22 ≤ (fieldOp w).toNat := by
      simp only [← BitVec.toNat_inj, imp_false, BitVec.toNat_ofNat] at *
      omega
    simp [hgrp, hop]
  case h_1 hop | h_12 hop => simp [decodeC_eq_ok, hgrp, hop, and_mask_c]
  case h_4 hop | h_9 hop | h_15 hop | h_18 hop | h_19 hop | h_20 hop | h_21 hop | h_22 hop =>
    simp [decodeCA_eq_ok, hgrp, hop, and_mask_ca]
  all_goals
    rename_i hop
    simp [decodeCAB_eq_ok, hgrp, hop, and_mask_cab]

theorem decodeMemory_legal_iff {w : Word} (hgrp : fieldGrp w = 2#3) :
    (∃ i, decodeMemory w = .ok i) ↔ ¬isIllegalWord w := by
  rw [not_isIllegalWord_iff, mustBeZeroBits_eq]
  unfold decodeMemory
  split
  next hop => simp [decodeCA_eq_ok, hgrp, hop, and_mask_ca]
  next hop => simp [decodeAB_eq_ok, hgrp, hop, and_mask_ab]
  next hload hstore =>
    have h20 : (fieldOp w).toNat ≠ 20 := fun e => hload (BitVec.eq_of_toNat_eq e)
    have h22 : (fieldOp w).toNat ≠ 22 := fun e => hstore (BitVec.eq_of_toNat_eq e)
    simp [hgrp, h20, h22]

theorem exists_encodeCond_iff (code : BitVec 4) : (∃ cond, encodeCond cond = code) ↔ code.toNat < 6 := by
  simp only [← decodeCond_eq_some, ← Option.isSome_iff_exists]
  revert code
  decide

theorem decodeCondJump_ok_iff {w : Word} {mk : Cond → Word → Instr} :
    (∃ i, decodeCondJump w mk = .ok i) ↔ (fieldCond w).toNat < 6 ∧ fieldJumpHigh w = 0#3 := by
  simp only [decodeCondJump_eq_ok, ← exists_encodeCond_iff]
  exact ⟨fun ⟨_, cond, hcond, hhigh, _⟩ => ⟨⟨cond, hcond⟩, hhigh⟩,
    fun ⟨⟨cond, hcond⟩, hhigh⟩ => ⟨_, cond, hcond, hhigh, rfl⟩⟩

theorem decodeControl_legal_iff {w : Word} (hgrp : fieldGrp w = 5#3) :
    (∃ i, decodeControl w = .ok i) ↔ ¬isIllegalWord w := by
  rw [not_isIllegalWord_iff, mustBeZeroBits_eq]
  unfold decodeControl
  split
  next hjop => simp [decodeCondJump_ok_iff, hgrp, hjop, and_mask_jump]
  next hjop => simp [decodeCondJump_ok_iff, hgrp, hjop, and_mask_jump]
  next hjop => simp [requireZero_eq_ok, hgrp, hjop, and_mask_jump]
  next h0 h1 h2 => simp [decodeRegisterJump_eq_ok, hgrp, jop_eq_three h0 h1 h2, and_mask_register_jump]

theorem nopGroup_ok_iff (w : Word) : (∃ i, (if w = Config.nopWord then Except.ok Instr.nop
    else Except.error Illegal.notNopWord) = Except.ok i) ↔ w = 0#32 := by
  split
  · next hw => exact ⟨fun _ => hw, fun _ => ⟨_, rfl⟩⟩
  · next hw => exact ⟨fun ⟨_, h⟩ => (nomatch h), fun h => absurd h hw⟩

theorem grp_eq_six_or_seven {grp : BitVec 3} (h0 : grp ≠ 0#3) (h1 : grp ≠ 1#3) (h2 : grp ≠ 2#3) (h3 : grp ≠ 3#3)
    (h4 : grp ≠ 4#3) (h5 : grp ≠ 5#3) : grp = 6#3 ∨ grp = 7#3 := by
  revert grp; decide

/-- A word decodes exactly when the list of R77 does not name it, group by group. -/
theorem decode_legal_iff (w : Word) : (∃ i, decode w = .ok i) ↔ ¬isIllegalWord w := by
  unfold decode
  split
  next hgrp =>
    rw [not_isIllegalWord_iff, mustBeZeroBits_eq]
    simp [hgrp, nopGroup_ok_iff]
  next hgrp => exact decodeAlu_legal_iff hgrp
  next hgrp => exact decodeMemory_legal_iff hgrp
  next hgrp =>
    rw [not_isIllegalWord_iff, mustBeZeroBits_eq]
    simp [decodeLoadlit_eq_ok, hgrp, and_mask_loadlit]
  next hgrp =>
    rw [not_isIllegalWord_iff, mustBeZeroBits_eq]
    simp [decodeHalf_eq_ok, hgrp, and_mask_half]
  next hgrp => exact decodeControl_legal_iff hgrp
  next h0 h1 h2 h3 h4 h5 =>
    rw [not_isIllegalWord_iff]
    rcases grp_eq_six_or_seven h0 h1 h2 h3 h4 h5 with hgrp | hgrp <;> simp [hgrp]

/-- The decoder refuses a word exactly when it gives no instruction. -/
theorem decode_eq_error_iff (w : Word) : (∃ e, decode w = .error e) ↔ ¬∃ i, decode w = .ok i := by
  cases decode w <;> simp

/-- Settles O5: the words refused are those that decode to no instruction. -/
theorem illegalWordsAreTheListedOnes : Obligations.IllegalWordsAreTheListedOnes := by
  intro w
  rw [decode_eq_error_iff, decode_legal_iff, not_not]

end Sys2Proof.Laws
end

section
/-! PROOFS. The step and its faults, reset, and the start of a run (60_exceptions.md R151, R155, 10_state.md R36,
70_reset_and_hazards.md R172). -/

namespace Sys2Proof.Machine

open Sys2Proof.Claims Sys2Proof.Laws Sys2Proof.Safety

/-! ## The step -/

theorem step_of_decode {s : State} {w : Word} {i : Instr} (hfetch : fetch s = .ok w) (hdecode : decode w = .ok i) :
    step s = exec i s := by
  simp [step, hfetch, hdecode]

/-- A word whose four bytes are listed, from the bytes (20_memory.md R41). -/
theorem readWord_of_bytes {m : Memory} {n : Nat} {b0 b1 b2 b3 : Byte} (h0 : readByte m (4 * n) = some b0)
    (h1 : readByte m (4 * n + 1) = some b1) (h2 : readByte m (4 * n + 2) = some b2)
    (h3 : readByte m (4 * n + 3) = some b3) : readWord m n = some (joinBytes b0 b1 b2 b3) := by
  simp [readWord, wordListed, readWordOr, byteKey_eq, h0, h1, h2, h3]

/-- Settles O6: the listed bytes are what the fetch gives and the decoder reads. -/
theorem stepRunsTheDecodedInstruction : Obligations.StepRunsTheDecodedInstruction :=
  fun _ _ _ _ _ _ hpc h0 h1 h2 h3 hdecode => step_of_decode (fetch_ok.mpr ⟨hpc, readWord_of_bytes h0 h1 h2 h3⟩) hdecode

/-- A fetch faults beyond `IMEM_WORDS` and where the image holds no word (20_memory.md R47). -/
theorem fetch_eq_error_iff {s : State} {f : Fault} : fetch s = .error f ↔
    (s.imemWords ≤ s.pc.toNat ∨ readWord s.imem s.pc.toNat = none) ∧ f = .fetchOutOfRange s.pc := by
  cases hfetch : fetch s with
  | ok w =>
    obtain ⟨hpc, hword⟩ := fetch_ok.mp hfetch
    simp [hword, Nat.not_le.mpr hpc]
  | error g =>
    have hno (w) : ¬(s.pc.toNat < s.imemWords ∧ readWord s.imem s.pc.toNat = some w) := fun h =>
      nomatch hfetch.symm.trans (fetch_ok.mpr h)
    have hout : s.imemWords ≤ s.pc.toNat ∨ readWord s.imem s.pc.toNat = none := by
      by_contra hin
      obtain ⟨hpc, hword⟩ := not_or.mp hin
      obtain ⟨w, hw⟩ := Option.ne_none_iff_exists'.mp hword
      exact hno w ⟨Nat.not_le.mp hpc, hw⟩
    rw [fetch_error hfetch]
    simp only [hout, true_and, Except.error.injEq, eq_comm (a := f)]

/-- An instruction faults exactly where it is a load or store of an address that is not implemented (R151). -/
theorem exec_fault_iff {i : Instr} {s : State} {f : Fault} : exec i s = .fault f ↔
    ∃ a, ((∃ c, i = .load c a) ∨ ∃ b, i = .store a b) ∧ s.dmemWords ≤ (readReg s a).toNat
      ∧ f = .dataOutOfRange (readReg s a) := by
  constructor
  · intro h
    rcases onlyLoadAndStoreFault i s with ⟨t, ht⟩ | ⟨c, a, hi, hge, hfault⟩ | ⟨a, b, hi, hge, hfault⟩
    · exact nomatch h.symm.trans ht
    · exact ⟨a, .inl ⟨c, hi⟩, hge, Host.Outcome.fault.inj (h.symm.trans hfault)⟩
    · exact ⟨a, .inr ⟨b, hi⟩, hge, Host.Outcome.fault.inj (h.symm.trans hfault)⟩
  · rintro ⟨a, ⟨c, rfl⟩ | ⟨b, rfl⟩, hge, rfl⟩
    · exact exec_load_out_of_range hge
    · exact exec_store_out_of_range hge

theorem exec_ne_refused (i : Instr) (s : State) (r : Refusal) : exec i s ≠ .refused r := by
  rcases onlyLoadAndStoreFault i s with ⟨t, h⟩ | ⟨c, a, -, -, h⟩ | ⟨a, b, -, -, h⟩ <;> simp [h]

/-- The faults of a step, in the order fetch, decode, execute (60_exceptions.md R155). -/
theorem step_fault_iff {s : State} {f : Fault} : step s = .fault f ↔ fetch s = .error f ∨ ∃ w, fetch s = .ok w
    ∧ ((∃ e, decode w = .error e) ∧ f = .illegalEncoding s.pc w ∨ ∃ i, decode w = .ok i ∧ exec i s = .fault f) := by
  unfold step
  cases fetch s with
  | error g => simp
  | ok w => cases hdecode : decode w <;> simp [hdecode, eq_comm]

theorem step_ne_refused (s : State) (r : Refusal) : step s ≠ .refused r := by
  unfold step
  split
  · simp
  · split
    · simp
    · exact exec_ne_refused _ s r

/-- A word that decodes to an instruction that faults. -/
theorem decoded_fault_iff {s : State} {w : Word} {f : Fault} : (∃ i, decode w = .ok i ∧ exec i s = .fault f) ↔
    ∃ a, ((∃ c, decode w = .ok (.load c a)) ∨ ∃ b, decode w = .ok (.store a b))
      ∧ s.dmemWords ≤ (readReg s a).toNat ∧ f = .dataOutOfRange (readReg s a) := by
  simp only [exec_fault_iff]
  constructor
  · rintro ⟨i, hdecode, a, ⟨c, rfl⟩ | ⟨b, rfl⟩, hrest⟩
    · exact ⟨a, .inl ⟨c, hdecode⟩, hrest⟩
    · exact ⟨a, .inr ⟨b, hdecode⟩, hrest⟩
  · rintro ⟨a, ⟨c, hdecode⟩ | ⟨b, hdecode⟩, hrest⟩
    · exact ⟨_, hdecode, a, .inl ⟨c, rfl⟩, hrest⟩
    · exact ⟨_, hdecode, a, .inr ⟨b, rfl⟩, hrest⟩

/-- Settles O7: the fault of the fetch, of the decoder and of the instruction, each by its own equivalence. -/
theorem stepFaultsAsListed : Obligations.StepFaultsAsListed := by
  refine fun s => ⟨fun f => ?_, step_ne_refused s⟩
  simp only [step_fault_iff, fetch_eq_error_iff, fetch_ok, illegalWordsAreTheListedOnes _, decoded_fault_iff, and_assoc,
    exists_and_left]

/-! ## Reset (10_state.md R36) -/

theorem readWord_nil (n : Nat) : readWord [] n = none := readWord_eq_none_iff.mpr rfl

/-- Settles O48: reset lists no word, and a hardwired r0 reads zero in every state. -/
theorem resetStartsAtAddressZero : Obligations.ResetStartsAtAddressZero :=
  fun _ _ _ => ⟨rfl, fun hz => readReg_hardwired (isHardwired_iff.mpr ⟨hz, rfl⟩),
    fun n => ⟨readWord_nil n, readWord_nil n⟩⟩

theorem inv_resetWith {im dm : Nat} (r0Zero : Bool) (him : 1 ≤ im ∧ im ≤ 2 ^ 32) (hdm : 1 ≤ dm ∧ dm ≤ 2 ^ 32) :
    Inv (State.resetWith im dm r0Zero) where
  r0_zero _ := by simp [State.resetWith]
  dmem_wf := List.Pairwise.nil
  imem_wf := List.Pairwise.nil
  dmem_implemented _ hcell := nomatch hcell
  imem_size := him
  dmem_size := hdm

/-- Settles O47: the empty memories are in canonical form, and r0 is zero whatever `R0_ZERO` is. -/
theorem resetHasTheInvariant : Obligations.ResetHasTheInvariant :=
  ⟨inv_resetWith _ (by decide) (by decide), fun _ _ _ him him' hdm hdm' => inv_resetWith _ ⟨him, him'⟩ ⟨hdm, hdm'⟩⟩

/-! ## The start of a run (70_reset_and_hazards.md R172) -/

/-- The start state before the registers and flags are given: reset, the image, the data words. -/
def RunStart.loaded (r : RunStart) : State :=
  placeData (loadImage (State.resetWith r.imemWords r.dmemWords r.r0Zero) r.image) r.data

/-- The register file of a start state is that of the loaded state with the registers placed. -/
theorem RunStart.state_regs (r : RunStart) : r.state.regs = (placeRegisters r.loaded r.registers).regs := by
  obtain ⟨hregs, -⟩ := placeFlags_fields (placeRegisters r.loaded r.registers) r.flags
  exact hregs

/-- Every field of a start state but the registers and the flags. -/
theorem RunStart.state_fields (r : RunStart) : r.state.pc = 0#32 ∧ r.state.imemWords = r.imemWords
    ∧ r.state.dmemWords = r.dmemWords ∧ r.state.r0Zero = r.r0Zero ∧ r.state.imem = writeWords [] 0 r.image
    ∧ r.state.dmem = writePairs [] r.data := by
  obtain ⟨-, hpc, hdmem, himem, hiw, hdw, hz, -⟩ := placeFlags_fields (placeRegisters r.loaded r.registers) r.flags
  obtain ⟨hpc', -, hdmem', himem', hiw', hdw', hz', -⟩ := placeRegisters_fields r.loaded r.registers
  exact ⟨hpc.trans hpc', hiw.trans hiw', hdw.trans hdw', hz.trans hz', himem.trans himem', hdmem.trans hdmem'⟩

/-- A register of a start state, read in the state with the registers placed. -/
theorem RunStart.readReg_state (r : RunStart) (c : Reg) :
    readReg r.state c = readReg (placeRegisters r.loaded r.registers) c := by
  obtain ⟨-, -, -, -, -, -, hz, -⟩ := placeFlags_fields (placeRegisters r.loaded r.registers) r.flags
  exact readReg_congr r.state_regs hz c

/-- Settles O50: placing an image, data words, registers and flags keeps what the invariant says of reset. -/
theorem everyStartOfRunHasTheInvariant : Obligations.EveryStartOfRunHasTheInvariant := by
  intro r s h
  obtain ⟨hwf, rfl⟩ := startOfRun_eq_some.mp h
  obtain ⟨hisize, hdsize, -, hdata⟩ := RunStart.wf_iff.mp hwf
  obtain ⟨-, hiw, hdw, hz, himem, hdmem⟩ := r.state_fields
  refine ⟨fun hz' => ?_, ?_, ?_, fun cell hcell => ?_, hiw ▸ hisize, hdw ▸ hdsize⟩
  · have hr0 : r.loaded.r0Zero = true := hz.symm.trans hz'
    simp only [r.state_regs, placeRegisters_regs_zero hr0]
    simp [RunStart.loaded, placeData, loadImage, State.resetWith]
  · rw [hdmem]
    exact writePairs_wf r.data List.Pairwise.nil
  · rw [himem]
    exact writeWords_wf 0 r.image List.Pairwise.nil
  · rw [hdmem] at hcell
    rcases mem_writePairs hcell with ⟨word, hword, -, hle⟩ | hnil
    · have hlt := hdata word hword
      omega
    · cases hnil

/-! ### What is named last counts (log 25) -/

theorem readWord_writePairs_lastNamed (m : Memory) {data : List (Word × Word)} {addr v : Word}
    (h : lastNamed data addr v) : readWord (writePairs m data) addr.toNat = some v := by
  obtain ⟨before, after, rfl, hafter⟩ := h
  rw [writePairs_append, writePairs, readWord_writePairs_other, readWord_writeWord_same]
  intro word hword e
  exact hafter (List.mem_map.mpr ⟨word, hword, BitVec.eq_of_toNat_eq e⟩)

theorem readReg_placeRegisters_lastNamed {s : State} {registers : List (Reg × Word)} {c : Reg} {v : Word}
    (h : lastNamed registers c v) (hc : isHardwired s c = false) : readReg (placeRegisters s registers) c = v := by
  obtain ⟨before, after, rfl, hafter⟩ := h
  obtain ⟨-, -, -, -, -, -, hz, -⟩ := placeRegisters_fields s before
  rw [placeRegisters_append, placeRegisters, readReg_placeRegisters_other _ hafter,
    readReg_writeReg_same _ v ((isHardwired_congr hz c).trans hc)]

theorem flagNamed_placeFlags_lastNamed {s : State} {flags : List (FlagName × Bool)} {name : FlagName} {b : Bool}
    (h : lastNamed flags name b) : flagNamed (placeFlags s flags).flags name = .bit b := by
  obtain ⟨before, after, rfl, hafter⟩ := h
  rw [placeFlags_append, placeFlags, flagNamed_placeFlags_other _ hafter, setFlags_flags, flagNamed_withFlag,
    if_pos rfl]

/-! ### The image (R172) -/

theorem RunStart.fetch_image (r : RunStart) (hlen : r.image.length ≤ r.imemWords) (n : Word)
    (h : n.toNat < r.image.length) : fetch (setPc r.state n) = .ok r.image[n.toNat] := by
  obtain ⟨-, hiw, -, -, himem, -⟩ := r.state_fields
  refine fetch_ok.mpr ⟨?_, ?_⟩
  · rw [setPc_pc, setPc_imemWords, hiw]
    omega
  · rw [setPc_imem, setPc_pc, himem, readWord_writeWords]
    simp [h]

theorem RunStart.fetch_beyond_image (r : RunStart) (n : Word) (h : r.image.length ≤ n.toNat) :
    fetch (setPc r.state n) = .error (.fetchOutOfRange n) := by
  obtain ⟨-, -, -, -, himem, -⟩ := r.state_fields
  refine fetch_eq_error_iff.mpr ⟨.inr ?_, rfl⟩
  rw [setPc_imem, setPc_pc, himem, readWord_writeWords, dif_neg (by omega), readWord_nil]

/-- Settles O49: each part of the start state by the lemma about the part that places it. -/
theorem startOfRunHoldsTheImage : Obligations.StartOfRunHoldsTheImage := by
  intro r
  refine ⟨by simp only [startOfRun_eq_some, exists_and_left, exists_eq', and_true, RunStart.wf_iff], fun s h => ?_⟩
  obtain ⟨hwf, rfl⟩ := startOfRun_eq_some.mp h
  obtain ⟨-, -, hlen, -⟩ := RunStart.wf_iff.mp hwf
  obtain ⟨hpc, hiw, hdw, hz, -, hdmem⟩ := r.state_fields
  have hhard (c) : isHardwired r.loaded c = isHardwired r.state c := isHardwired_congr hz.symm c
  refine ⟨⟨hpc, hiw, hdw, hz⟩, r.fetch_image hlen, r.fetch_beyond_image, fun addr v hlast => ?_, fun n hn => ?_,
    fun c v hlast hc => ?_, fun c hc => ?_, fun c hc => readReg_hardwired (isHardwired_iff.mpr hc),
    fun name b hlast => flagNamed_placeFlags_lastNamed hlast, fun name hname => ?_⟩
  · rw [hdmem]
    exact readWord_writePairs_lastNamed [] hlast
  · rw [hdmem, readWord_writePairs_other [] r.data n hn, readWord_nil]
  · rw [r.readReg_state]
    exact readReg_placeRegisters_lastNamed hlast ((hhard c).trans (isHardwired_eq_false_iff.mpr hc))
  · rw [r.readReg_state, readReg_placeRegisters_other _ hc]
    exact readReg_congr rfl rfl c
  · obtain ⟨-, hflags, -⟩ := placeRegisters_fields r.loaded r.registers
    exact (flagNamed_placeFlags_other _ hname).trans (congrArg (flagNamed · name) hflags)

end Sys2Proof.Machine
end
